-- ==== Sys2Proof/Word.lean ====
section
/-! DEFINITION. Word.lean: the word types of the MAX72XX-FRAMER (spec/00_scope.md R11). Every value is an unsigned bit
vector of the width the spec gives it; counts, buffer indices and frame positions are plain natural numbers. -/

namespace Sys2Proof

/-- A byte: a buffer byte, a ROM byte, an opcode byte or a data byte (R11, R22, R86). -/
abbrev Byte := BitVec 8

/-- A device address, the 8-bit ADDR field (R80). -/
abbrev Dev := BitVec 8

/-- A row, digit or column number, the 3-bit IDX and COL fields (R80, R83). -/
abbrev Idx := BitVec 3

/-- A host command word (R80). -/
abbrev HostWord := BitVec 32

/-- A wire word: opcode byte in bits 15..8, data byte in bits 7..0 (R86). -/
abbrev WireWord := BitVec 16

end Sys2Proof
end

