-- ==== Sys2Proof/Syntax.lean ====
section
/-! DEFINITION. Syntax.lean: the instructions of spec/opcode_table.json, one constructor per row, in the table's order: nine
host operations, the two pseudo-instructions ON and OFF, and the fourteen wire commands. Operands stand in the order of
the assembler syntax (R90). A wire command's first operand is the device whose frame slot carries the word: a slot names
its device by position alone (R53, R88), so it is an operand that no bit of the 16-bit word encodes. -/

namespace Sys2Proof

/-- The instructions of the block and of the chained chips. -/
inductive Instr where
  /-- SHUTDOWN a, s (R130). -/
  | shutdown (a : Dev) (s : Bool)
  /-- SETSCANLIMIT a, limit (R133). -/
  | setScanLimit (a : Dev) (limit : Byte)
  /-- SETBRIGHTNESS a, v (R134). -/
  | setBrightness (a : Dev) (v : Byte)
  /-- CLEAR a (R150). -/
  | clear (a : Dev)
  /-- SETLED a, row, col, state (R151). -/
  | setLed (a : Dev) (row : Idx) (col : Idx) (state : Bool)
  /-- SETROW a, row, v (R152). -/
  | setRow (a : Dev) (row : Idx) (v : Byte)
  /-- SETCOLUMN a, col, v (R153). -/
  | setColumn (a : Dev) (col : Idx) (v : Byte)
  /-- SETDIGIT a, digit, v, dp (R154). -/
  | setDigit (a : Dev) (digit : Idx) (v : Byte) (dp : Bool)
  /-- SETCHAR a, digit, v, dp; in matrix mode v is the character code and digit and dp are ignored (R180). -/
  | setChar (a : Dev) (digit : Idx) (v : Byte) (dp : Bool)
  /-- ON a, a second name of SHUTDOWN a, 0 (R91, R131). -/
  | on (a : Dev)
  /-- OFF a, a second name of SHUTDOWN a, 1 (R91, R132). -/
  | off (a : Dev)
  /-- Wire command NOOP at device a (R110). -/
  | noop (a : Dev) (data : Byte)
  /-- Wire command DIGIT0 at device a (R111). -/
  | digit0 (a : Dev) (data : Byte)
  /-- Wire command DIGIT1 at device a (R112). -/
  | digit1 (a : Dev) (data : Byte)
  /-- Wire command DIGIT2 at device a (R113). -/
  | digit2 (a : Dev) (data : Byte)
  /-- Wire command DIGIT3 at device a (R114). -/
  | digit3 (a : Dev) (data : Byte)
  /-- Wire command DIGIT4 at device a (R115). -/
  | digit4 (a : Dev) (data : Byte)
  /-- Wire command DIGIT5 at device a (R116). -/
  | digit5 (a : Dev) (data : Byte)
  /-- Wire command DIGIT6 at device a (R117). -/
  | digit6 (a : Dev) (data : Byte)
  /-- Wire command DIGIT7 at device a (R118). -/
  | digit7 (a : Dev) (data : Byte)
  /-- Wire command DECODEMODE at device a (R119). -/
  | decodeMode (a : Dev) (data : Byte)
  /-- Wire command INTENSITY at device a (R120). -/
  | intensity (a : Dev) (data : Byte)
  /-- Wire command SCANLIMIT at device a (R121). -/
  | scanLimit (a : Dev) (data : Byte)
  /-- Wire command SHUTDOWN at device a (R122); the table's SHUTDOWN_REG. -/
  | shutdownReg (a : Dev) (data : Byte)
  /-- Wire command DISPLAYTEST at device a (R123). -/
  | displayTest (a : Dev) (data : Byte)
deriving DecidableEq, Repr

end Sys2Proof
end

