-- ==== Sys2Proof/WellFormed.lean ====
section
/-! DEFINITION. WellFormed.lean: which terms of Instr are instructions of the machine. Every operand range the spec asks for
is carried by the operand's type (R83: 3-bit rows, digits and columns; R80: 8-bit addresses and data), so no operand can be
ill formed. What is left is R91 and R84: ON and OFF are pseudo-instructions, names an assembler expands to SHUTDOWN; no
word decodes to them, because a decoder may use them only as aliases of SHUTDOWN. -/

namespace Sys2Proof

/-- A pseudo-instruction becomes the instruction it expands to (R91); every other instruction stays as it is. -/
def Instr.expand : Instr → Instr
  | .on a => .shutdown a false
  | .off a => .shutdown a true
  | .shutdown a s => .shutdown a s
  | .setScanLimit a limit => .setScanLimit a limit
  | .setBrightness a v => .setBrightness a v
  | .clear a => .clear a
  | .setLed a row col state => .setLed a row col state
  | .setRow a row v => .setRow a row v
  | .setColumn a col v => .setColumn a col v
  | .setDigit a digit v dp => .setDigit a digit v dp
  | .setChar a digit v dp => .setChar a digit v dp
  | .noop a d => .noop a d
  | .digit0 a d => .digit0 a d
  | .digit1 a d => .digit1 a d
  | .digit2 a d => .digit2 a d
  | .digit3 a d => .digit3 a d
  | .digit4 a d => .digit4 a d
  | .digit5 a d => .digit5 a d
  | .digit6 a d => .digit6 a d
  | .digit7 a d => .digit7 a d
  | .decodeMode a d => .decodeMode a d
  | .intensity a d => .intensity a d
  | .scanLimit a d => .scanLimit a d
  | .shutdownReg a d => .shutdownReg a d
  | .displayTest a d => .displayTest a d

/-- The check: an instruction is well formed when it is its own expansion, that is, when it is neither ON nor OFF. -/
def Instr.wellFormed : Instr → Bool
  | .on _ => false
  | .off _ => false
  | .shutdown _ _ => true
  | .setScanLimit _ _ => true
  | .setBrightness _ _ => true
  | .clear _ => true
  | .setLed _ _ _ _ => true
  | .setRow _ _ _ => true
  | .setColumn _ _ _ => true
  | .setDigit _ _ _ _ => true
  | .setChar _ _ _ _ => true
  | .noop _ _ => true
  | .digit0 _ _ => true
  | .digit1 _ _ => true
  | .digit2 _ _ => true
  | .digit3 _ _ => true
  | .digit4 _ _ => true
  | .digit5 _ _ => true
  | .digit6 _ _ => true
  | .digit7 _ _ => true
  | .decodeMode _ _ => true
  | .intensity _ _ => true
  | .scanLimit _ _ => true
  | .shutdownReg _ _ => true
  | .displayTest _ _ => true

end Sys2Proof
end

