-- ==== Sys2Proof/Decode.lean ====
section
/-! DEFINITION. Decode.lean: the two encodings of spec/30_encoding.md, the decoder, total on every word and rejecting by name,
and the encoder. -/

namespace Sys2Proof

/-- An encoded instruction: a 32-bit host command word (R80), or the 16-bit wire word that the frame slot of device `slot`
carries (R53, R86). -/
inductive Code where
  | host (w : HostWord)
  | wire (slot : Dev) (w : WireWord)
deriving DecidableEq, Repr

/-- Why a word is no instruction. -/
inductive Reject where
  /-- A host word whose OP is 0x0 or 0xA..0xF (R85). -/
  | reservedOp
  /-- A host word with a nonzero field that R84 marks zero (R85). -/
  | nonzeroField
  /-- A wire word whose opcode byte is not listed in R86 (R87). -/
  | unlistedOpcode
deriving DecidableEq, Repr

/-- OP, bits 31..28 (R80). -/
def fieldOp (w : HostWord) : BitVec 4 := w.extractLsb' 28 4
/-- ADDR, bits 27..20 (R80). -/
def fieldAddr (w : HostWord) : Dev := w.extractLsb' 20 8
/-- F, bit 19, read as a Boolean (R80, R81). -/
def fieldF (w : HostWord) : Bool := w.getLsbD 19
/-- IDX, bits 18..16 (R80). -/
def fieldIdx (w : HostWord) : Idx := w.extractLsb' 16 3
/-- RSV, bits 15..11 (R80). -/
def fieldRsv (w : HostWord) : BitVec 5 := w.extractLsb' 11 5
/-- COL, bits 10..8 (R80). -/
def fieldCol (w : HostWord) : Idx := w.extractLsb' 8 3
/-- DATA, bits 7..0 (R80). -/
def fieldData (w : HostWord) : Byte := w.extractLsb' 0 8

/-- The instruction `i`, if the fields that R84 marks zero are zero; else the word is reserved (R85). -/
def ifZero (fieldsAreZero : Bool) (i : Instr) : Except Reject Instr :=
  if fieldsAreZero then .ok i else .error .nonzeroField

/-- The operation map of R84, rows in the order of OP. -/
def decodeHost (w : HostWord) : Except Reject Instr :=
  match (fieldOp w).toNat with
  | 0x1 => ifZero (fieldIdx w == 0 && fieldRsv w == 0 && fieldCol w == 0 && fieldData w == 0)
      (.shutdown (fieldAddr w) (fieldF w))
  | 0x2 => ifZero (!fieldF w && fieldIdx w == 0 && fieldRsv w == 0 && fieldCol w == 0)
      (.setScanLimit (fieldAddr w) (fieldData w))
  | 0x3 => ifZero (!fieldF w && fieldIdx w == 0 && fieldRsv w == 0 && fieldCol w == 0)
      (.setBrightness (fieldAddr w) (fieldData w))
  | 0x4 => ifZero (!fieldF w && fieldIdx w == 0 && fieldRsv w == 0 && fieldCol w == 0 && fieldData w == 0)
      (.clear (fieldAddr w))
  | 0x5 => ifZero (fieldRsv w == 0 && fieldData w == 0)
      (.setLed (fieldAddr w) (fieldIdx w) (fieldCol w) (fieldF w))
  | 0x6 => ifZero (!fieldF w && fieldRsv w == 0 && fieldCol w == 0)
      (.setRow (fieldAddr w) (fieldIdx w) (fieldData w))
  | 0x7 => ifZero (!fieldF w && fieldRsv w == 0 && fieldCol w == 0)
      (.setColumn (fieldAddr w) (fieldIdx w) (fieldData w))
  | 0x8 => ifZero (fieldRsv w == 0 && fieldCol w == 0)
      (.setDigit (fieldAddr w) (fieldIdx w) (fieldData w) (fieldF w))
  | 0x9 => ifZero (fieldRsv w == 0 && fieldCol w == 0)
      (.setChar (fieldAddr w) (fieldIdx w) (fieldData w) (fieldF w))
  | _ => .error .reservedOp

/-- The opcode byte of a wire word (R86). -/
def wireOp (w : WireWord) : Byte := w.extractLsb' 8 8
/-- The data byte of a wire word (R86). -/
def wireData (w : WireWord) : Byte := w.extractLsb' 0 8

/-- The wire opcode map of R86, for the word in the slot of device `a`. -/
def decodeWire (a : Dev) (w : WireWord) : Except Reject Instr :=
  match (wireOp w).toNat with
  | 0x00 => .ok (.noop a (wireData w))
  | 0x01 => .ok (.digit0 a (wireData w))
  | 0x02 => .ok (.digit1 a (wireData w))
  | 0x03 => .ok (.digit2 a (wireData w))
  | 0x04 => .ok (.digit3 a (wireData w))
  | 0x05 => .ok (.digit4 a (wireData w))
  | 0x06 => .ok (.digit5 a (wireData w))
  | 0x07 => .ok (.digit6 a (wireData w))
  | 0x08 => .ok (.digit7 a (wireData w))
  | 0x09 => .ok (.decodeMode a (wireData w))
  | 0x0A => .ok (.intensity a (wireData w))
  | 0x0B => .ok (.scanLimit a (wireData w))
  | 0x0C => .ok (.shutdownReg a (wireData w))
  | 0x0F => .ok (.displayTest a (wireData w))
  | _ => .error .unlistedOpcode

/-- The decoder: total on every code, rejecting by name. -/
def decode : Code → Except Reject Instr
  | .host w => decodeHost w
  | .wire a w => decodeWire a w

/-- A host command word from its fields, RSV zero (R80; the form of spec/95_test_vectors.md):
`OP << 28 | ADDR << 20 | F << 19 | IDX << 16 | COL << 8 | DATA`. -/
def hostWord (op : BitVec 4) (a : Dev) (f : Bool) (idx : Idx) (col : Idx) (data : Byte) : HostWord :=
  op.setWidth 32 <<< 28 ||| a.setWidth 32 <<< 20 ||| (BitVec.ofBool f).setWidth 32 <<< 19 ||| idx.setWidth 32 <<< 16 |||
    col.setWidth 32 <<< 8 ||| data.setWidth 32

/-- A wire word from its two bytes: `opcode << 8 | data` (R86). -/
def wireWord (op d : Byte) : WireWord := op.setWidth 16 <<< 8 ||| d.setWidth 16

/-- The encoder, from the same tables: R90 (host operations), R91 (ON and OFF), R86 (wire commands). -/
def encode : Instr → Code
  | .shutdown a s => .host (hostWord 0x1 a s 0 0 0)
  | .setScanLimit a limit => .host (hostWord 0x2 a false 0 0 limit)
  | .setBrightness a v => .host (hostWord 0x3 a false 0 0 v)
  | .clear a => .host (hostWord 0x4 a false 0 0 0)
  | .setLed a row col state => .host (hostWord 0x5 a state row col 0)
  | .setRow a row v => .host (hostWord 0x6 a false row 0 v)
  | .setColumn a col v => .host (hostWord 0x7 a false col 0 v)
  | .setDigit a digit v dp => .host (hostWord 0x8 a dp digit 0 v)
  | .setChar a digit v dp => .host (hostWord 0x9 a dp digit 0 v)
  | .on a => .host (hostWord 0x1 a false 0 0 0)
  | .off a => .host (hostWord 0x1 a true 0 0 0)
  | .noop a d => .wire a (wireWord 0x00 d)
  | .digit0 a d => .wire a (wireWord 0x01 d)
  | .digit1 a d => .wire a (wireWord 0x02 d)
  | .digit2 a d => .wire a (wireWord 0x03 d)
  | .digit3 a d => .wire a (wireWord 0x04 d)
  | .digit4 a d => .wire a (wireWord 0x05 d)
  | .digit5 a d => .wire a (wireWord 0x06 d)
  | .digit6 a d => .wire a (wireWord 0x07 d)
  | .digit7 a d => .wire a (wireWord 0x08 d)
  | .decodeMode a d => .wire a (wireWord 0x09 d)
  | .intensity a d => .wire a (wireWord 0x0A d)
  | .scanLimit a d => .wire a (wireWord 0x0B d)
  | .shutdownReg a d => .wire a (wireWord 0x0C d)
  | .displayTest a d => .wire a (wireWord 0x0F d)

/-- The code of a word of spec/opcode_table.json given as a number: a WIRE16 row has 16 bits and stands in slot 0 of its
frame, a HOST32 row has 32 bits. A host word is one 32-bit unit and has no byte order (R80); bits above `nbits` are zero. -/
def tableCode (nbits w : Nat) : Code :=
  if nbits ≤ 16 then .wire 0 (BitVec.ofNat 16 (w % 2 ^ nbits)) else .host (BitVec.ofNat 32 (w % 2 ^ nbits))

/-- The instruction the decoder reads from a word of spec/opcode_table.json. -/
def decodeTableWord (nbits w : Nat) : Option Instr := (decode (tableCode nbits w)).toOption

end Sys2Proof
end

