-- ==== Sys2Proof/Machine/Flags.lean ====
section
/-! DEFINITION. Machine/Flags.lean: the block has no status flag and no operation sets one as a side effect (spec/10_state.md
R42); its only flag is the operand F of a host command word. Here stands what each use of F computes. -/

namespace Sys2Proof.Machine

/-- The data byte of the SHUTDOWN wire command: the inverse of `shouldShutdown` (R130, C4). -/
def powerData (shouldShutdown : Bool) : Byte := if shouldShutdown then 0x00 else 0x01

/-- A segment byte with the decimal-point bit ORed in when `dp` is set (R61, R154). -/
def withPoint (dp : Bool) (b : Byte) : Byte := if dp then b ||| 0x80 else b

/-- The mask of column `col`, bit 7 - col (R151). -/
def columnMask (col : Idx) : Byte := 0x80#8 >>> col.toNat

/-- A row byte with the LED of column `col` set or cleared (R151). -/
def ledByte (b : Byte) (col : Idx) (state : Bool) : Byte :=
  if state then b ||| columnMask col else b &&& ~~~(columnMask col)

/-- The bit that SETCOLUMN gives row `row`: bit 7 - row of `v` (R153). -/
def columnBit (v : Byte) (row : Idx) : Bool := v.getLsbD (7 - row.toNat)

end Sys2Proof.Machine
end

