-- ==== Sys2Proof/Config.lean ====
section
/-! DEFINITION. Config.lean: what one built machine fixes (spec/00_scope.md R10, spec/10_state.md R20, R21) and the free
values. The configuration itself is part of State (R43), so that a statement about every state is a statement about every
configuration; the values here are only those that `State.reset` is built with. The font ROM contents and the chips'
power-up registers are opaque: the spec leaves them OPEN (D15, D27) and nothing in Lean can evaluate them. -/

namespace Sys2Proof

/-- N of the machine that `State.reset` builds. DESIGN CHOICE (log 1): the spec leaves N to the configuration, 1..256. -/
def Config.devices : Nat := 1

/-- IS_MATRIX of the machine that `State.reset` builds. DESIGN CHOICE (log 1). -/
def Config.isMatrix : Bool := false

/-- CLEAR_GUARD of the machine that `State.reset` builds: the spec's default (R10, D4). -/
def Config.clearGuard : Bool := true

/-- Free value: entry `v` of SEG_FONT for `v` other than 32 (R62, D15; log 2). -/
opaque Config.segFontEntry : Nat → BitVec 8

/-- Free value: row byte `r` of entry `k` of MATRIX_FONT, `k` counted from character code 0x21 (R63, D15; log 2). -/
opaque Config.glyphByte : Nat → Nat → BitVec 8

/-- Free value: what register `k` of chained chip `a` holds at power-up (R36, D27, K13; log 3). -/
opaque Config.chipPowerUp : Nat → Nat → BitVec 8

/-- SEG_FONT of the machine that `State.reset` builds: entry 32 is 0x00 (R61, D14), every other entry is free. -/
def Config.segFont : Vector Byte 128 :=
  Vector.ofFn fun i => if i.val = 32 then 0x00#8 else Config.segFontEntry i.val

/-- MATRIX_FONT of the machine that `State.reset` builds: every byte is free (R63). -/
def Config.matrixFont : Vector (Vector Byte 8) 94 :=
  Vector.ofFn fun k => Vector.ofFn fun r => Config.glyphByte k.val r.val

end Sys2Proof
end

