-- ==== Sys2Proof/Machine/State.lean ====
section
/-! DEFINITION. Machine/State.lean: the whole state of the block (spec/10_state.md R43), the registers of the chained chips
(R35, R36), what the outside presents (the host command port R33 and the order in which the agents move R65, R185), and the
observation of a run (R43, R246: the frames emitted). Plain data throughout. -/

namespace Sys2Proof.Machine

/-- The level of a port (R30). -/
inductive Level where
  | low
  | high
deriving DecidableEq, Repr

/-- The three output ports (R30). -/
inductive Port where
  | cs
  | clk
  | din
deriving DecidableEq, Repr

/-- One pin event `Pin(P, L)` (R12, R103). -/
structure PinEvent where
  port : Port
  level : Level
deriving DecidableEq, Repr

/-- The levels of the three output ports (R30). -/
structure Ports where
  cs : Level
  clk : Level
  din : Level
deriving DecidableEq, Repr

/-- The port levels at reset: CS deselected, CLK and DIN low (R31, R230 step 2). -/
def Ports.atReset : Ports := { cs := .high, clk := .low, din := .low }

/-- The configuration (R20, R21). The field widths are the table's: `n` is checked to be 1..256 by `Cfg.legal`. -/
structure Cfg where
  /-- N, the number of chained chips (R8). -/
  n : Nat
  /-- IS_MATRIX (R9). -/
  isMatrix : Bool
  /-- CLEAR_GUARD (R10, R150). -/
  clearGuard : Bool
  /-- SEG_FONT, 128 bytes (R60). -/
  segFont : Vector Byte 128
  /-- MATRIX_FONT, the 94 entries for codes 0x21..0x7E, 8 row bytes each (R63). -/
  matrixFont : Vector (Vector Byte 8) 94
deriving DecidableEq, Repr

/-- The registers of one chained chip in the reference receiver model (R35, R36). -/
structure Chip where
  /-- DIGITREG[a][0..7]. -/
  digits : Vector Byte 8
  /-- DECODE[a]. -/
  decode : Byte
  /-- INTENSITY[a]. -/
  intensity : Byte
  /-- SCANLIMIT[a]. -/
  scanLimit : Byte
  /-- SHUTDOWN[a]: 0x00 is OFF, 0x01 is ON (R37). -/
  shutdown : Byte
  /-- TEST[a]. -/
  test : Byte
deriving DecidableEq, Repr

/-- The name of a chip register (R36). -/
inductive ChipReg where
  | digit (k : Idx)
  | decode
  | intensity
  | scanLimit
  | shutdown
  | test
deriving DecidableEq, Repr

/-- An entry of the deferred queue: device address, row, row byte (R26). -/
structure Entry where
  a : Dev
  r : Idx
  v : Byte
deriving DecidableEq, Repr

/-- A batch: the row writes one matrix SETCHAR deferred that have not run yet, in order (R26). -/
abbrev Batch := List Entry

/-- The display buffer as a list of (index, byte) pairs, indices strictly rising. An index that is not listed is
"unwritten" and has no value (R25). -/
abbrev Memory := List Host.Cell

/-- What happens next between two steps (R65, R67, R185, R213): plain data that says which agent moves, so that every
interleaving the spec admits is some list of turns. -/
inductive Turn where
  /-- The Command Controller takes the next host command word, if one waits (R33). -/
  | controller
  /-- The Deferred Row-Write Runner serves batch number `batch` of DQ, if there is one (R185, R186). -/
  | runner (batch : Nat)
  /-- A driver other than this block makes device `a` latch wire word `w` (R124; R71: a chip changed by other means). -/
  | wire (a : Dev) (w : WireWord)
  /-- The host applies the reset signal (R213, R230, D31). -/
  | reset
deriving DecidableEq, Repr

/-- The state (R43), the chips (R35), the inputs waiting (R33, R185) and the observation (R43). -/
structure State where
  /-- cfg, latched at reset and never changed (R20). -/
  cfg : Cfg
  /-- buf, 8N bytes (R22). -/
  buf : Memory
  /-- DQ, the collection of batches (R26). -/
  dq : List Batch
  /-- INIT_DONE (R34). -/
  initDone : Bool
  /-- CS, CLK and DIN (R30). -/
  ports : Ports
  /-- The chained chips' registers, device 0 first (R35). -/
  chips : List Chip
  /-- Every frame emitted so far, oldest first, each as frame[0..2N-1] (R43, R101). -/
  frames : List (List Byte)
  /-- Host command words presented and not yet accepted, next one first (R33). -/
  commands : List HostWord
  /-- The coming turns, next one first (R65, R185). -/
  turns : List Turn
deriving DecidableEq, Repr

/-- Why the model stops: the closed set of model faults of R205. None is hardware behaviour. All three are safe: the model
stops where the spec calls the hardware's behaviour undefined. -/
inductive Fault where
  /-- FRAME_ADDR, raised by SEND for a device address of N or more (R100, D6). Safe. -/
  | frameAddr
  /-- CLEAR_OUT_OF_RANGE, raised by CLEAR for an invalid address when CLEAR_GUARD = 0, and by any other buffer access
  outside 0..8N-1, which no operation can form (R56, R150, D4). Safe. -/
  | clearOutOfRange
  /-- UNWRITTEN_READ, raised by a read of a buffer byte nothing has written since reset (R25, D9). Safe. -/
  | unwrittenRead
deriving DecidableEq, Repr

/-- Why the model declines to run. -/
inductive Refusal where
  /-- An instruction without a meaning yet. Raised by `exec` alone; no arm raises it now. Safe. -/
  | notModelled (mnemonic : String)
  /-- The configuration is not legal: N outside 1..256 or SEG_FONT[32] not 0x00 (R21, D1, D14). Raised by `step`. Safe: the
  spec says a model refuses to build such a machine. -/
  | illegalConfiguration
deriving DecidableEq, Repr

/-- The state right after reset (R230 steps 1 to 5) for a configuration `c` and chips whose registers hold `chips`: the ports
at their reset levels, every buffer byte unwritten, DQ empty, INIT_DONE 0. The first step then runs the initialization
sequence (R230 step 6). -/
def State.resetWith (c : Cfg) (chips : List Chip) : State :=
  { cfg := c, buf := [], dq := [], initDone := false, ports := Ports.atReset, chips := chips, frames := [],
    commands := [], turns := [] }

/-- The straps of `State.reset` (log 1, log 2). -/
def Cfg.atReset : Cfg :=
  { n := Config.devices, isMatrix := Config.isMatrix, clearGuard := Config.clearGuard, segFont := Config.segFont,
    matrixFont := Config.matrixFont }

/-- Chip `a` at power-up: every register holds a free value (R36, D27; log 3). -/
def Chip.powerUp (a : Nat) : Chip :=
  { digits := Vector.ofFn fun k => Config.chipPowerUp a k.val, decode := Config.chipPowerUp a 8,
    intensity := Config.chipPowerUp a 9, scanLimit := Config.chipPowerUp a 10, shutdown := Config.chipPowerUp a 11,
    test := Config.chipPowerUp a 12 }

/-- The machine right after reset. -/
def State.reset : State := State.resetWith Cfg.atReset ((List.range Config.devices).map Chip.powerUp)

end Sys2Proof.Machine
end

