-- ==== Sys2Proof/Machine/Operands.lean ====
section
/-! DEFINITION. Machine/Operands.lean: the configuration check, the address decoder (spec/20_memory.md R51 to R53), the font
lookups (R60, R63), the wire opcodes (R86), and the frame of one wire command (R89, R101). -/

namespace Sys2Proof.Machine

/-- A legal configuration: N in 1..256, and SEG_FONT[32] = 0x00 (R21). -/
def Cfg.legal (c : Cfg) : Bool := decide (1 ≤ c.n) && decide (c.n ≤ 256) && (c.segFont[32] == 0x00)

/-- `valid(a)`: the device-address check (R51). -/
abbrev valid (s : State) (a : Nat) : Prop := a < s.cfg.n

/-- `idx(a, r)`: the buffer index of row or digit `r` of device `a` (R52). -/
def bufIndex (a : Nat) (r : Idx) : Nat := a * 8 + r.toNat

/-- The rows or digits 0..7 in ascending order (R150, R153, R183). -/
def rows : List Idx := [0, 1, 2, 3, 4, 5, 6, 7]

/-- `SegRom(v)`: values above 127 read the blank entry 32 (R60). -/
def segRom (c : Cfg) (v : Byte) : Byte := if h : v.toNat < 128 then c.segFont[v.toNat] else c.segFont[32]

/-- The byte SETDIGIT stores: font lookup, then the decimal point (R154). -/
def digitByte (c : Cfg) (v : Byte) (dp : Bool) : Byte := withPoint dp (segRom c v)

/-- The glyph of character code `v`; none outside 0x21..0x7E (R63, R182). -/
def glyph (c : Cfg) (v : Byte) : Option (Vector Byte 8) :=
  if h : 0x21 ≤ v.toNat ∧ v.toNat ≤ 0x7E then some (c.matrixFont[v.toNat - 0x21]'(by omega)) else none

/-- Row byte `r` of a glyph (R63, R181). -/
def glyphRow (g : Vector Byte 8) (r : Idx) : Byte := g[r.toNat]'(r.isLt)

/-- The batch of one matrix SETCHAR: the 8 row writes in row order, holding the values read from the ROM now (R180, R183). -/
def glyphBatch (a : Dev) (g : Vector Byte 8) : Batch := rows.map fun r => { a := a, r := r, v := glyphRow g r }

/-- DIGIT(k) = 0x01 + k (R86). -/
def opDigit (k : Idx) : Byte := 0x01#8 + k.setWidth 8
/-- DECODEMODE (R86). -/
def opDecodeMode : Byte := 0x09
/-- INTENSITY (R86). -/
def opIntensity : Byte := 0x0A
/-- SCANLIMIT (R86). -/
def opScanLimit : Byte := 0x0B
/-- SHUTDOWN (R86). -/
def opShutdown : Byte := 0x0C
/-- DISPLAYTEST (R86). -/
def opDisplayTest : Byte := 0x0F

/-- The register a wire opcode writes; NOOP and the unlisted opcodes write none (R110 to R124). -/
def regOfOpcode (op : Byte) : Option ChipReg :=
  match op.toNat with
  | 0x01 => some (.digit 0)
  | 0x02 => some (.digit 1)
  | 0x03 => some (.digit 2)
  | 0x04 => some (.digit 3)
  | 0x05 => some (.digit 4)
  | 0x06 => some (.digit 5)
  | 0x07 => some (.digit 6)
  | 0x08 => some (.digit 7)
  | 0x09 => some .decode
  | 0x0A => some .intensity
  | 0x0B => some .scanLimit
  | 0x0C => some .shutdown
  | 0x0F => some .test
  | _ => none

/-- The frame of `n` devices that carries `op`, `d` to device `a`: 2n bytes, index 0 first, all zero but the two of slot `a`
(R101). -/
def frameBytes (n a : Nat) (op d : Byte) : List Byte :=
  (List.range (2 * n)).map fun j => if j = 2 * a then d else if j = 2 * a + 1 then op else 0x00

/-- The opcode byte in slot `a` of a frame (R53). -/
def slotOp (f : List Byte) (a : Nat) : Byte := f.getD (2 * a + 1) 0x00

/-- The data byte in slot `a` of a frame (R53). -/
def slotData (f : List Byte) (a : Nat) : Byte := f.getD (2 * a) 0x00

end Sys2Proof.Machine
end

