-- ==== Sys2Proof/Machine/Ops.lean ====
section
/-! DEFINITION. Machine/Ops.lean: the named operations every meaning is written over: the display buffer (spec/20_memory.md
R55 to R58), the ports and the shifting of a frame (spec/40_protocol_engine.md R100 to R107), the latch of the chained chips
(R106, R110 to R125), the row write that keeps the buffer and the chip equal (R23), and the reset of a running block (R230).
The block takes no exception and returns from none (spec/60_exceptions.md R200, R204), so no such operation stands here. -/

namespace Sys2Proof.Machine

/-- The result of an operation. -/
abbrev Result := Host.Outcome State Fault Refusal

/-- First `r`, then `k` from the state `r` leaves; a stop of `r` is the stop of the whole. -/
def andThen (r : Result) (k : State → Result) : Result :=
  match r with
  | .next s => k s
  | .fault f => .fault f
  | .refused q => .refused q

/-! ### The display buffer -/

/-- The byte at index `i`; none when nothing has written it (R25). -/
def Memory.read : Memory → Nat → Option Byte
  | [], _ => none
  | (j, b) :: m, i => if i = j then some b else Memory.read m i

/-- Write byte `v` at index `i`, keeping the indices strictly rising. -/
def Memory.write : Memory → Nat → Byte → Memory
  | [], i, v => [(i, v)]
  | (j, b) :: m, i, v =>
    if i < j then (i, v) :: (j, b) :: m else if i = j then (i, v) :: m else (j, b) :: Memory.write m i v

/-- The canonical form: indices strictly rising. An unlisted index has no value, so no entry can be superfluous. -/
def Memory.wf : Memory → Bool
  | [] => true
  | [_] => true
  | (i, _) :: (j, b) :: m => decide (i < j) && Memory.wf ((j, b) :: m)

/-- `buf[i]` as a value: a fault when the byte is unwritten (R25) or outside 0..8N-1 (R56). -/
def readByte (i : Nat) (s : State) : Except Fault Byte :=
  if i < 8 * s.cfg.n then
    match Memory.read s.buf i with
    | some b => .ok b
    | none => .error .unwrittenRead
  else .error .clearOutOfRange

/-- The state after byte `i` of the buffer took value `v`. -/
def setByte (i : Nat) (v : Byte) (s : State) : State := { s with buf := Memory.write s.buf i v }

/-- `buf[i] <- v`: one byte, nothing else (R55, R58); an index outside 0..8N-1 faults and writes nothing (R56). -/
def writeByte (i : Nat) (v : Byte) (s : State) : Result :=
  if i < 8 * s.cfg.n then .next (setByte i v s) else .fault .clearOutOfRange

/-! ### The ports and the shifting of a frame -/

/-- `Pin(P, L)`: drive one port to a level (R12). -/
def Ports.drive (p : Ports) (e : PinEvent) : Ports :=
  match e.port with
  | .cs => { p with cs := e.level }
  | .clk => { p with clk := e.level }
  | .din => { p with din := e.level }

/-- The level that stands for a bit (R105). -/
def bitLevel (x : Bool) : Level := if x then .high else .low

/-- `ShiftBit(x)`: DIN to the bit, then CLK high, then CLK low (R105). -/
def bitEvents (x : Bool) : List PinEvent := [⟨.din, bitLevel x⟩, ⟨.clk, .high⟩, ⟨.clk, .low⟩]

/-- The bits of a byte, most significant first (R104). -/
def msbFirst (b : Byte) : List Bool := [7, 6, 5, 4, 3, 2, 1, 0].map fun i => b.getLsbD i

/-- `ShiftByte(b)` (R104). -/
def byteEvents (b : Byte) : List PinEvent := (msbFirst b).flatMap bitEvents

/-- The pin events of one frame: CS low, the bytes from the highest index down to 0, CS high (R102, R103). -/
def frameEvents (f : List Byte) : List PinEvent := ⟨.cs, .low⟩ :: (f.reverse.flatMap byteEvents ++ [⟨.cs, .high⟩])

/-! ### The chained chips -/

/-- Write one register of a chip (R36). -/
def Chip.put (r : ChipReg) (d : Byte) (c : Chip) : Chip :=
  match r with
  | .digit k => { c with digits := c.digits.set k.toNat d k.isLt }
  | .decode => { c with decode := d }
  | .intensity => { c with intensity := d }
  | .scanLimit => { c with scanLimit := d }
  | .shutdown => { c with shutdown := d }
  | .test => { c with test := d }

/-- Read one register of a chip (R36). -/
def Chip.get (r : ChipReg) (c : Chip) : Byte :=
  match r with
  | .digit k => c.digits[k.toNat]'(k.isLt)
  | .decode => c.decode
  | .intensity => c.intensity
  | .scanLimit => c.scanLimit
  | .shutdown => c.shutdown
  | .test => c.test

/-- What a chip's registers become when it latches wire word `op ++ d` (R110 to R124). -/
def Chip.latch (op d : Byte) (c : Chip) : Chip :=
  match regOfOpcode op with
  | some r => c.put r d
  | none => c

/-- The state after device `a` alone latched a word that writes register `r`. A position outside the chain holds no chip. -/
def latchReg (a : Nat) (r : ChipReg) (d : Byte) (s : State) : State := { s with chips := s.chips.modify a (Chip.put r d) }

/-! ### SEND -/

/-- The state after frame `f` went out: the ports as its pin events leave them (R103), every device's slot latched at the
rising edge of CS (R106, R125), the frame added to the observation (R43). -/
def emit (f : List Byte) (s : State) : State :=
  { s with
    ports := (frameEvents f).foldl Ports.drive s.ports
    chips := s.chips.mapIdx fun a c => c.latch (slotOp f a) (slotData f a)
    frames := s.frames ++ [f] }

/-- `SEND(a, op, d)` (R100): one frame to device `a`; it reads no buffer byte and suppresses no frame (R107). -/
def send (a : Nat) (op d : Byte) (s : State) : Result :=
  if valid s a then .next (emit (frameBytes s.cfg.n a op d) s) else .fault .frameAddr

/-! ### Row writes -/

/-- `buf[idx(a, r)] <- v`, then `SEND(a, DIGIT(r), v)`: the pair every buffer-writing operation is made of (R23). -/
def putRow (a : Nat) (r : Idx) (v : Byte) (s : State) : Result :=
  andThen (writeByte (bufIndex a r) v s) (send a (opDigit r) v)

/-- Do `f` for each of the listed rows, in order. -/
def eachRow (f : Idx → State → Result) : List Idx → State → Result
  | [], s => .next s
  | r :: rs, s => andThen (f r s) (eachRow f rs)

/-- Write 0x00 to all 8 rows of device `a` and send each, in ascending order (the loop of R150 and of R232). -/
def clearRows (a : Nat) (s : State) : Result := eachRow (fun r => putRow a r 0x00) rows s

/-- SETROW as an operation: SETROW itself and the deferred row write use it (R152, R186). -/
def writeRow (a : Nat) (r : Idx) (v : Byte) (s : State) : Result :=
  if valid s a then putRow a r v s else .next s

/-- SETLED as an operation: SETLED itself and SETCOLUMN use it (R151, R153). -/
def writeLed (a : Nat) (row col : Idx) (state : Bool) (s : State) : Result :=
  if valid s a then
    match readByte (bufIndex a row) s with
    | .ok b => putRow a row (ledByte b col state) s
    | .error f => .fault f
  else .next s

/-- SETDIGIT as an operation: SETDIGIT itself and 7-segment SETCHAR use it (R154, R180). -/
def writeDigit (a : Nat) (digit : Idx) (v : Byte) (dp : Bool) (s : State) : Result :=
  if valid s a then putRow a digit (digitByte s.cfg v dp) s else .next s

/-- `Defer(batch)`: the batch joins DQ as a batch of its own (R183). -/
def defer (b : Batch) (s : State) : State := { s with dq := s.dq ++ [b] }

/-- SHUTDOWN as an operation: SHUTDOWN, ON and OFF use it (R130 to R132). -/
def setPower (a : Nat) (shouldShutdown : Bool) (s : State) : Result :=
  if valid s a then send a opShutdown (powerData shouldShutdown) s else .next s

/-! ### Reset of a running block -/

/-- The state after the reset signal (R230 steps 1 to 5, D31): the ports at their reset levels, the buffer unwritten, DQ
discarded, INIT_DONE 0. The configuration is latched again, and the straps never change (R20). The chips, the words the host
still holds, and the frames observed so far lie outside the block and stay. -/
def reboot (s : State) : State :=
  { s with buf := [], dq := [], initDone := false, ports := Ports.atReset }

end Sys2Proof.Machine
end

