-- ==== Sys2Proof/Machine/Character.lean ====
section
/-! DEFINITION. Machine/Character.lean: the character operation and the deferred row write (spec/43_character.md). -/

namespace Sys2Proof.Machine

/-- SETCHAR (R180): in 7-segment mode the SETDIGIT of the same operands; in matrix mode it defers the glyph's 8 row writes and
touches neither buffer nor pins, and a code without a glyph does nothing (R182). -/
def execSetChar (a : Dev) (digit : Idx) (v : Byte) (dp : Bool) (s : State) : Result :=
  if valid s a.toNat then
    if s.cfg.isMatrix then
      match glyph s.cfg v with
      | some g => .next (defer (glyphBatch a g) s)
      | none => .next s
    else writeDigit a.toNat digit v dp s
  else .next s

/-- DQ once the first entry of batch `k` is gone and `rest` is left of it: an empty batch is removed (R27, R186). -/
def dqAfter (dq : List Batch) (k : Nat) (rest : Batch) : List Batch :=
  match rest with
  | [] => dq.eraseIdx k
  | e :: es => dq.set k (e :: es)

/-- DEFERRED ROW WRITE (R186): the first entry of batch `k` leaves DQ and runs as a SETROW. With no such batch the runner
cannot step and nothing happens. -/
def deferredRowWrite (k : Nat) (s : State) : Result :=
  match s.dq[k]? with
  | some (e :: rest) => writeRow e.a.toNat e.r e.v { s with dq := dqAfter s.dq k rest }
  | some [] => .next s
  | none => .next s

end Sys2Proof.Machine
end

