-- ==== Sys2Proof/Machine/Mutation.lean ====
section
/-! DEFINITION. Machine/Mutation.lean: the state-mutation operations (spec/42_state_mutation.md). None of them examines
IS_MATRIX (D16). -/

namespace Sys2Proof.Machine

/-- CLEAR a (R150): guarded when CLEAR_GUARD = 1; the unguarded path with an invalid address is a model fault. -/
def execClear (a : Dev) (s : State) : Result :=
  if valid s a.toNat then clearRows a.toNat s
  else if s.cfg.clearGuard then .next s
  else .fault .clearOutOfRange

/-- SETLED a, row, col, state (R151). -/
def execSetLed (a : Dev) (row col : Idx) (state : Bool) (s : State) : Result := writeLed a.toNat row col state s

/-- SETROW a, row, v (R152). -/
def execSetRow (a : Dev) (row : Idx) (v : Byte) (s : State) : Result := writeRow a.toNat row v s

/-- SETCOLUMN a, col, v (R153): the SETLED of each row in ascending order, with bit 7 - row of v. -/
def execSetColumn (a : Dev) (col : Idx) (v : Byte) (s : State) : Result :=
  if valid s a.toNat then eachRow (fun row => writeLed a.toNat row col (columnBit v row)) rows s else .next s

/-- SETDIGIT a, digit, v, dp (R154). -/
def execSetDigit (a : Dev) (digit : Idx) (v : Byte) (dp : Bool) (s : State) : Result := writeDigit a.toNat digit v dp s

end Sys2Proof.Machine
end

