-- ==== Sys2Proof/Machine/Power.lean ====
section
/-! DEFINITION. Machine/Power.lean: the power and configuration operations (spec/41_power_config.md). -/

namespace Sys2Proof.Machine

/-- SHUTDOWN a, s (R130). -/
def execShutdown (a : Dev) (shouldShutdown : Bool) (s : State) : Result := setPower a.toNat shouldShutdown s

/-- SETSCANLIMIT a, limit: all 8 bits pass through (R133). -/
def execSetScanLimit (a : Dev) (limit : Byte) (s : State) : Result :=
  if valid s a.toNat then send a.toNat opScanLimit limit s else .next s

/-- SETBRIGHTNESS a, v: not clamped (R134). -/
def execSetBrightness (a : Dev) (v : Byte) (s : State) : Result :=
  if valid s a.toNat then send a.toNat opIntensity v s else .next s

/-- ON a, as SHUTDOWN a, 0 (R131). -/
def execOn (a : Dev) (s : State) : Result := setPower a.toNat false s

/-- OFF a, as SHUTDOWN a, 1 (R132). -/
def execOff (a : Dev) (s : State) : Result := setPower a.toNat true s

end Sys2Proof.Machine
end

