-- ==== Sys2Proof/Machine/Wire.lean ====
section
/-! DEFINITION. Machine/Wire.lean: what each wire command does at the device that latches it (spec/40_protocol_engine.md R110
to R123). A wire command raises nothing and changes one register of one chip at most. -/

namespace Sys2Proof.Machine

/-- NOOP: no register changes; the data byte is ignored (R110). -/
def execNoop (_a : Dev) (_data : Byte) (s : State) : Result := .next s

/-- DIGIT0 (R111). -/
def execDigit0 (a : Dev) (data : Byte) (s : State) : Result := .next (latchReg a.toNat (.digit 0) data s)

/-- DIGIT1 (R112). -/
def execDigit1 (a : Dev) (data : Byte) (s : State) : Result := .next (latchReg a.toNat (.digit 1) data s)

/-- DIGIT2 (R113). -/
def execDigit2 (a : Dev) (data : Byte) (s : State) : Result := .next (latchReg a.toNat (.digit 2) data s)

/-- DIGIT3 (R114). -/
def execDigit3 (a : Dev) (data : Byte) (s : State) : Result := .next (latchReg a.toNat (.digit 3) data s)

/-- DIGIT4 (R115). -/
def execDigit4 (a : Dev) (data : Byte) (s : State) : Result := .next (latchReg a.toNat (.digit 4) data s)

/-- DIGIT5 (R116). -/
def execDigit5 (a : Dev) (data : Byte) (s : State) : Result := .next (latchReg a.toNat (.digit 5) data s)

/-- DIGIT6 (R117). -/
def execDigit6 (a : Dev) (data : Byte) (s : State) : Result := .next (latchReg a.toNat (.digit 6) data s)

/-- DIGIT7 (R118). -/
def execDigit7 (a : Dev) (data : Byte) (s : State) : Result := .next (latchReg a.toNat (.digit 7) data s)

/-- DECODEMODE (R119). -/
def execDecodeMode (a : Dev) (data : Byte) (s : State) : Result := .next (latchReg a.toNat .decode data s)

/-- INTENSITY (R120). -/
def execIntensity (a : Dev) (data : Byte) (s : State) : Result := .next (latchReg a.toNat .intensity data s)

/-- SCANLIMIT (R121). -/
def execScanLimit (a : Dev) (data : Byte) (s : State) : Result := .next (latchReg a.toNat .scanLimit data s)

/-- SHUTDOWN (R122). -/
def execShutdownReg (a : Dev) (data : Byte) (s : State) : Result := .next (latchReg a.toNat .shutdown data s)

/-- DISPLAYTEST (R123). -/
def execDisplayTest (a : Dev) (data : Byte) (s : State) : Result := .next (latchReg a.toNat .test data s)

end Sys2Proof.Machine
end

