-- ==== Sys2Proof/Machine/Dispatch.lean ====
section
/-! DEFINITION. Machine/Dispatch.lean: the one match from an instruction to its meaning. -/

namespace Sys2Proof.Machine

def exec (i : Instr) (s : State) : Host.Outcome State Fault Refusal :=
  match i with
  | .shutdown a f => Sys2Proof.Machine.execShutdown a f s
  | .setScanLimit a limit => Sys2Proof.Machine.execSetScanLimit a limit s
  | .setBrightness a v => Sys2Proof.Machine.execSetBrightness a v s
  | .clear a => Sys2Proof.Machine.execClear a s
  | .setLed a row col state => Sys2Proof.Machine.execSetLed a row col state s
  | .setRow a row v => Sys2Proof.Machine.execSetRow a row v s
  | .setColumn a col v => Sys2Proof.Machine.execSetColumn a col v s
  | .setDigit a digit v dp => Sys2Proof.Machine.execSetDigit a digit v dp s
  | .setChar a digit v dp => Sys2Proof.Machine.execSetChar a digit v dp s
  | .on a => Sys2Proof.Machine.execOn a s
  | .off a => Sys2Proof.Machine.execOff a s
  | .noop a data => Sys2Proof.Machine.execNoop a data s
  | .digit0 a data => Sys2Proof.Machine.execDigit0 a data s
  | .digit1 a data => Sys2Proof.Machine.execDigit1 a data s
  | .digit2 a data => Sys2Proof.Machine.execDigit2 a data s
  | .digit3 a data => Sys2Proof.Machine.execDigit3 a data s
  | .digit4 a data => Sys2Proof.Machine.execDigit4 a data s
  | .digit5 a data => Sys2Proof.Machine.execDigit5 a data s
  | .digit6 a data => Sys2Proof.Machine.execDigit6 a data s
  | .digit7 a data => Sys2Proof.Machine.execDigit7 a data s
  | .decodeMode a data => Sys2Proof.Machine.execDecodeMode a data s
  | .intensity a data => Sys2Proof.Machine.execIntensity a data s
  | .scanLimit a data => Sys2Proof.Machine.execScanLimit a data s
  | .shutdownReg a data => Sys2Proof.Machine.execShutdownReg a data s
  | .displayTest a data => Sys2Proof.Machine.execDisplayTest a data s

end Sys2Proof.Machine
end

