-- ==== Sys2Proof/Machine/Sched.lean ====
section
/-! DEFINITION. Machine/Sched.lean: the initialization sequence (spec/70_reset_and_hazards.md R232), the acceptance of a host
command word (spec/10_state.md R33, spec/30_encoding.md R85), and which agent moves in a step (spec/20_memory.md R65 to R67,
spec/43_character.md R185). -/

namespace Sys2Proof.Machine

/-- The initialization of device `a`: DISPLAYTEST off, SCANLIMIT 7, DECODEMODE 0, the eight rows cleared, SHUTDOWN (R232). -/
def initDevice (a : Nat) (s : State) : Result :=
  andThen (send a opDisplayTest 0x00 s) fun s =>
  andThen (send a opScanLimit 0x07 s) fun s =>
  andThen (send a opDecodeMode 0x00 s) fun s =>
  andThen (clearRows a s) fun s =>
  send a opShutdown 0x00 s

/-- The initialization of the listed devices, in order. -/
def initDevices : List Nat → State → Result
  | [], s => .next s
  | a :: as, s => andThen (initDevice a s) (initDevices as)

/-- The initialization sequence, one atomic activity: every device in ascending order, then INIT_DONE becomes 1 (R232, R233). -/
def initSequence (s : State) : Result :=
  andThen (initDevices (List.range s.cfg.n) s) fun t => .next { t with initDone := true }

/-- Run an encoded instruction; a word that is no instruction is ignored as a whole (R85, R124). -/
def runCode (c : Code) (s : State) : Result :=
  match decode c with
  | .ok i => exec i s
  | .error _ => .next s

/-- The controller takes the next host command word, if one waits, and executes or ignores it (R33, R85). -/
def acceptCommand (s : State) : Result :=
  match s.commands with
  | [] => .next s
  | w :: ws => runCode (.host w) { s with commands := ws }

/-- The turn when no turn is listed (log 5): the controller while a host word waits, else the runner on the first batch. -/
def defaultTurn (s : State) : Result :=
  match s.commands with
  | [] => deferredRowWrite 0 s
  | _ :: _ => acceptCommand s

/-- What happens in one step. A reset takes effect between any two steps (R230). Until INIT_DONE = 1 the only activity is the
initialization sequence: host words are held and no other turn is used up (R33, R34, R233). Then the listed turn is taken. -/
def takeTurn (s : State) : Result :=
  if s.cfg.legal then
    match s.initDone, s.turns with
    | _, .reset :: ts => .next (reboot { s with turns := ts })
    | false, _ => initSequence s
    | true, .controller :: ts => acceptCommand { s with turns := ts }
    | true, .runner k :: ts => deferredRowWrite k { s with turns := ts }
    | true, .wire a w :: ts => runCode (.wire a w) { s with turns := ts }
    | true, [] => defaultTurn s
  else .refused .illegalConfiguration

/-- The state ready for its next turn: initialized, if it is not yet (R34). -/
def initialized (s : State) : State :=
  if s.initDone then s
  else match initSequence s with
    | .next t => t
    | .fault _ => s
    | .refused _ => s

/-- Present a code so that the next step runs it: a host word goes to the head of the command port and the controller moves
next; a wire word is latched next by the device of its slot. -/
def present (c : Code) (s : State) : State :=
  match c with
  | .host w => { s with commands := w :: s.commands, turns := .controller :: s.turns }
  | .wire a w => { s with turns := .wire a w :: s.turns }

end Sys2Proof.Machine
end

