-- ==== Sys2Proof/Machine/Step.lean ====
section
/-! DEFINITION. Machine/Step.lean: one step of the machine, and how a word is placed for it. -/

namespace Sys2Proof.Machine

/-- One step: one atomic step of one agent (R13, R65). -/
def step (s : State) : Host.Outcome State Fault Refusal := Sys2Proof.Machine.takeTurn s

/-- `s` with the instruction word `w` of `nbits` bits placed where the next step takes its instruction from (log 6). -/
def State.withFetchWord (s : State) (nbits w : Nat) : State :=
  Sys2Proof.Machine.present (Sys2Proof.tableCode nbits w) (Sys2Proof.Machine.initialized s)

end Sys2Proof.Machine
end

