-- ==== Sys2Proof/Safety.lean ====
section
/-! DEFINITION. Safety.lean: the words the statements use: what a run shows, what a good state is, when a run is complete, and
what an observer of the pins samples. -/

namespace Sys2Proof

/-- The device an instruction names (R80: the ADDR field; R53: the slot of a wire word). -/
def Instr.device : Instr → Dev
  | .shutdown a _ => a
  | .setScanLimit a _ => a
  | .setBrightness a _ => a
  | .clear a => a
  | .setLed a _ _ _ => a
  | .setRow a _ _ => a
  | .setColumn a _ _ => a
  | .setDigit a _ _ _ => a
  | .setChar a _ _ _ => a
  | .on a => a
  | .off a => a
  | .noop a _ => a
  | .digit0 a _ => a
  | .digit1 a _ => a
  | .digit2 a _ => a
  | .digit3 a _ => a
  | .digit4 a _ => a
  | .digit5 a _ => a
  | .digit6 a _ => a
  | .digit7 a _ => a
  | .decodeMode a _ => a
  | .intensity a _ => a
  | .scanLimit a _ => a
  | .shutdownReg a _ => a
  | .displayTest a _ => a

namespace Machine

/-! ### The observation -/

/-- The pin events of a run, the observation in its other form (R43). -/
def State.pinTrace (s : State) : List PinEvent := s.frames.flatMap frameEvents

/-- A wire command the block sends: device, opcode, data (R100). -/
abbrev Sent := Nat × Byte × Byte

/-- The frame of a sent wire command in a chain of `n` (R101). -/
def Sent.frame (n : Nat) (x : Sent) : List Byte := frameBytes n x.1 x.2.1 x.2.2

/-- `t` has shown exactly the frames of `xs` after those of `s`, in this order (R13). -/
def Emitted (s t : State) (xs : List Sent) : Prop := t.frames = s.frames ++ xs.map (Sent.frame s.cfg.n)

/-- What a chip's registers become when the listed commands reach it: those for other devices leave it alone (R125). -/
def chipAfter (a : Nat) (xs : List Sent) (c : Chip) : Chip :=
  xs.foldl (fun c x => if x.1 = a then c.latch x.2.1 x.2.2 else c) c

/-- Every chip of `t` is the chip of `s` after the listed commands (R106, R125). -/
def Reached (s t : State) (xs : List Sent) : Prop :=
  ∀ a, t.chips[a]? = (s.chips[a]?).map (chipAfter a xs)

/-- CS is HIGH and CLK is LOW, as between any two frames (R31). -/
def Ports.idle (p : Ports) : Bool := (p.cs == .high) && (p.clk == .low)

/-- Everything but the buffer, the ports, the chips and the frames is as it was. -/
def KeepsRest (s t : State) : Prop :=
  t.cfg = s.cfg ∧ t.dq = s.dq ∧ t.initDone = s.initDone ∧ t.commands = s.commands ∧ t.turns = s.turns

/-- Every buffer byte reads as it did. -/
def KeepsBuffer (s t : State) : Prop := ∀ i, Memory.read t.buf i = Memory.read s.buf i

/-- From `s` to `t` exactly the commands of `xs` went out, they reached the chips, the ports ended idle, and the rest of the
state but the buffer stayed. -/
def Sends (s t : State) (xs : List Sent) : Prop :=
  Emitted s t xs ∧ Reached s t xs ∧ (xs = [] → t.ports = s.ports) ∧ (xs ≠ [] → t.ports.idle = true) ∧ KeepsRest s t

/-- From `s` to `t` the buffer byte of row `r` of device `a` became `v`, and every other byte reads as before. -/
def StoresByte (s t : State) (a : Nat) (r : Idx) (v : Byte) : Prop :=
  ∀ i, Memory.read t.buf i = if i = bufIndex a r then some v else Memory.read s.buf i

/-- From `s` to `t` nothing changed but the chips, of which chip `a` alone changed, by `f`. -/
def LatchesOnly (s t : State) (a : Nat) (f : Chip → Chip) : Prop :=
  { t with chips := s.chips } = s ∧ t.chips[a]? = (s.chips[a]?).map f ∧ ∀ b, b ≠ a → t.chips[b]? = s.chips[b]?

/-- The wire commands of the initialization of device `a`, in order (R232). -/
def initCommands (a : Nat) : List Sent :=
  [(a, 0x0F, 0x00), (a, 0x0B, 0x07), (a, 0x09, 0x00), (a, 0x01, 0x00), (a, 0x02, 0x00), (a, 0x03, 0x00), (a, 0x04, 0x00),
    (a, 0x05, 0x00), (a, 0x06, 0x00), (a, 0x07, 0x00), (a, 0x08, 0x00), (a, 0x0C, 0x00)]

/-! ### Host words -/

/-- The bits of a host word that R84 marks zero for the operation number `op`; none when `op` is reserved. -/
def zeroBits (op : Nat) : Option HostWord :=
  match op with
  | 0x1 => some 0x0007FFFF
  | 0x2 => some 0x000FFF00
  | 0x3 => some 0x000FFF00
  | 0x4 => some 0x000FFFFF
  | 0x5 => some 0x0000F8FF
  | 0x6 => some 0x0008FF00
  | 0x7 => some 0x0008FF00
  | 0x8 => some 0x0000FF00
  | 0x9 => some 0x0000FF00
  | _ => none

/-- A reserved host word: its OP is 0x0 or 0xA..0xF, or a field marked zero is not (R85). -/
def ReservedWord (w : HostWord) : Prop := ∀ m, zeroBits (w >>> 28).toNat = some m → w &&& m ≠ 0

/-- The wire opcodes that R86 does not list (R87). -/
def UnlistedOpcode (op : Byte) : Prop := op = 0x0D ∨ op = 0x0E ∨ 0x10 ≤ op.toNat

/-! ### Good states -/

/-- The data byte of the last DIGIT(r) command that the listed frames carry to device `a` (R23). -/
def lastDigit (frames : List (List Byte)) (a : Nat) (r : Idx) : Option Byte :=
  frames.foldl (fun acc f => if slotOp f a = opDigit r then some (slotData f a) else acc) none

/-- The buffer is in canonical form and lists no index outside 0..8N-1 (R22). -/
def BufferCanonical (s : State) : Prop :=
  Memory.wf s.buf = true ∧ ∀ i, 8 * s.cfg.n ≤ i → Memory.read s.buf i = none

/-- After initialization every buffer byte has been written (R25, R234). -/
def BufferWritten (s : State) : Prop :=
  s.initDone = true → ∀ i, i < 8 * s.cfg.n → ∃ b, Memory.read s.buf i = some b

/-- The buffer invariant: after initialization each byte is the data of the last DIGIT(r) sent to its device (R23). -/
def BufferMirrorsFrames (s : State) : Prop :=
  s.initDone = true → ∀ a, a < s.cfg.n → ∀ r : Idx, Memory.read s.buf (bufIndex a r) = lastDigit s.frames a r

/-- A batch as R26 and R183 have it: it is not empty, its entries name one valid device, and its rows rise strictly. -/
def BatchGood (n : Nat) (b : Batch) : Prop :=
  b ≠ [] ∧ (∀ e ∈ b, e.a.toNat < n) ∧ (∀ e ∈ b, ∀ f ∈ b, e.a = f.a) ∧ b.Pairwise fun e f => e.r.toNat < f.r.toNat

/-- DQ holds good batches, and is empty until initialization is done (R26, R27, R34). -/
def QueueGood (s : State) : Prop :=
  (∀ b ∈ s.dq, BatchGood s.cfg.n b) ∧ (s.initDone = false → s.dq = [])

/-- A good state: a legal configuration, one chip per device, the ports idle, the buffer and the queue as they should be. -/
def Good (s : State) : Prop :=
  s.cfg.legal = true ∧ s.chips.length = s.cfg.n ∧ s.ports.idle = true ∧ BufferCanonical s ∧ BufferWritten s ∧
    BufferMirrorsFrames s ∧ QueueGood s

/-- Every chip's digit registers equal the buffer bytes of its device (R23 at the receiver, R35). -/
def ChipsMirrorBuffer (s : State) : Prop :=
  s.initDone = true → ∀ a c, s.chips[a]? = some c → ∀ r : Idx, Memory.read s.buf (bufIndex a r) = some (c.get (.digit r))

/-! ### The end of a run -/

/-- A run is complete: initialized, every host word executed or ignored, DQ empty (R246; the fourth condition, no model
fault, is that there is a state at all). -/
def Complete (s : State) : Prop := s.initDone = true ∧ s.commands = [] ∧ s.dq = []

/-- How many deferred row writes wait. -/
def pending (dq : List Batch) : Nat := (dq.map List.length).sum

/-- A bound on the steps a run still takes: a host word defers at most 8 row writes, a reset asks for one more step. -/
def stepsLeft (s : State) : Nat :=
  2 * s.turns.length + 9 * s.commands.length + pending s.dq + (if s.initDone then 0 else 1)

/-- `k` steps, stopping where a step stops. -/
def runSteps : Nat → State → Result
  | 0, s => .next s
  | k + 1, s => andThen (step s) (runSteps k)

/-- The batch the runner serves in the next step, if the turn is the runner's: a listed one (R185), or batch 0 when nothing is
listed and no word waits (log 5). -/
def servedBatch (s : State) : Option Nat :=
  if s.initDone then
    match s.turns with
    | .runner k :: _ => some k
    | [] => if s.commands = [] then some 0 else none
    | .controller :: _ => none
    | .wire _ _ :: _ => none
    | .reset :: _ => none
  else none

/-- The entry a runner step takes off DQ in the next step (R186). -/
def servedNow (s : State) : Option Entry := (servedBatch s).bind fun k => (s.dq[k]?).bind List.head?

/-- The entries the runner takes off DQ in the next `k` steps, in order. -/
def servedIn : Nat → State → List Entry
  | 0, _ => []
  | k + 1, s =>
    (servedNow s).toList ++
      match step s with
      | .next t => servedIn k t
      | .fault _ => []
      | .refused _ => []

/-! ### What an observer of the pins samples -/

/-- The DIN level at each rising edge of CLK while CS is LOW, from ports `p` on (R105; sampling at the rising edge is the
spec's general knowledge G4). -/
def sampled : Ports → List PinEvent → List Bool
  | _, [] => []
  | p, e :: es =>
    if e.port = .clk ∧ e.level = .high ∧ p.clk = .low ∧ p.cs = .low then
      (p.din == .high) :: sampled (p.drive e) es
    else sampled (p.drive e) es

/-- The 16 bits device `a` holds once `bits` went through the chain of 16-bit shift registers, device 0 at DIN: the last bit in
is bit 0 of device 0 (R106; the shift-register mechanics are the spec's general knowledge G5, the wiring is D28). -/
def chainWord (bits : List Bool) (a : Nat) : List Bool := (bits.drop (bits.length - 16 * (a + 1))).take 16

/-- A frame as one number, byte `j` at bits 8j+7..8j (R101). -/
def frameValue : List Byte → Nat
  | [] => 0
  | b :: f => b.toNat + 256 * frameValue f

end Machine

end Sys2Proof
end

