-- ==== Sys2Proof/Certificates/Slice0/Obligations.lean ====
section
/-! DEFINITION. Certificates/Slice0/Obligations.lean: the statements about the model. Each docstring names the rule of spec/ it
formalises, or says what it rests on. `Sends s t xs` (Safety.lean) says: exactly the wire commands of `xs` went out, in this
order, one frame each; every chip is what those commands make of it; the ports ended idle (or, with no command, as they were);
and the configuration, DQ, INIT_DONE, the waiting host words and the coming turns are as they were. `StoresByte` says which
one buffer byte changed. -/

open Sys2Proof Sys2Proof.Machine

/-! ### Encoding -/

/-- Decoding the code of a well-formed instruction gives it back, for every value of every operand (R80, R84, R86). -/
def Obligations.DecodeOfEncodeIsTheInstruction : Prop :=
  ∀ i : Instr, i.wellFormed = true → decode (encode i) = .ok i

/-- A code that decodes is the code of the instruction it decodes to, and that instruction is well formed: no bit of an
accepted word is ignored, and every word has one meaning (R84, R85). -/
def Obligations.EncodeOfDecodeIsTheWord : Prop :=
  ∀ (c : Code) (i : Instr), decode c = .ok i → encode i = c ∧ i.wellFormed = true

/-- The match and mask values of the table of R84 say exactly which words decode to which host operation. -/
def Obligations.HostWordsDecodeByMatchAndMask : Prop :=
  ∀ w : HostWord,
    ((∃ a s, decode (.host w) = .ok (.shutdown a s)) ↔ w &&& 0xF007FFFF#32 = 0x10000000#32) ∧
    ((∃ a v, decode (.host w) = .ok (.setScanLimit a v)) ↔ w &&& 0xF00FFF00#32 = 0x20000000#32) ∧
    ((∃ a v, decode (.host w) = .ok (.setBrightness a v)) ↔ w &&& 0xF00FFF00#32 = 0x30000000#32) ∧
    ((∃ a, decode (.host w) = .ok (.clear a)) ↔ w &&& 0xF00FFFFF#32 = 0x40000000#32) ∧
    ((∃ a r c s, decode (.host w) = .ok (.setLed a r c s)) ↔ w &&& 0xF000F8FF#32 = 0x50000000#32) ∧
    ((∃ a r v, decode (.host w) = .ok (.setRow a r v)) ↔ w &&& 0xF008FF00#32 = 0x60000000#32) ∧
    ((∃ a c v, decode (.host w) = .ok (.setColumn a c v)) ↔ w &&& 0xF008FF00#32 = 0x70000000#32) ∧
    ((∃ a d v p, decode (.host w) = .ok (.setDigit a d v p)) ↔ w &&& 0xF000FF00#32 = 0x80000000#32) ∧
    ((∃ a d v p, decode (.host w) = .ok (.setChar a d v p)) ↔ w &&& 0xF000FF00#32 = 0x90000000#32)

/-- A reserved host word, once accepted, is a step with no effect, and the reserved words are exactly those the decoder rejects
(R85). -/
def Obligations.ReservedHostWordIsIgnored : Prop :=
  (∀ w : HostWord, ReservedWord w ↔ ∃ r, decode (.host w) = .error r) ∧
  ∀ (s : State) (w : HostWord) (ws : List HostWord) (ts : List Turn), s.cfg.legal = true → s.initDone = true →
    s.commands = w :: ws → ReservedWord w → s.turns = .controller :: ts → step s = .next { s with commands := ws, turns := ts }

/-- ON a and OFF a are the words 0x1000_0000 | a << 20 and 0x1008_0000 | a << 20, which decode to SHUTDOWN a, 0 and SHUTDOWN a,
1 and do the same (R91). -/
def Obligations.OnAndOffExpandToShutdown : Prop :=
  ∀ a : Dev,
    encode (.on a) = .host (0x10000000#32 ||| a.setWidth 32 <<< 20) ∧
    encode (.off a) = .host (0x10080000#32 ||| a.setWidth 32 <<< 20) ∧
    decode (encode (.on a)) = .ok (.shutdown a false) ∧ decode (encode (.off a)) = .ok (.shutdown a true) ∧
    ∀ s, exec (.on a) s = exec (.shutdown a false) s ∧ exec (.off a) s = exec (.shutdown a true) s

/-- Words written out bit by bit from the encoding tables of R80, R84 and R86 decode to what they stand for: one or more of
each family, and reserved ones. (The word that R154's example prints does not fit the layout of R80: log 8.) -/
def Obligations.WrittenOutWordsDecode : Prop :=
  decode (.host 0x10080000) = .ok (.shutdown 0 true) ∧
  decode (.host 0x3010000F) = .ok (.setBrightness 1 15) ∧
  decode (.host 0x40100000) = .ok (.clear 1) ∧
  decode (.host 0x500A0300) = .ok (.setLed 0 2 3 true) ∧
  decode (.host 0x601300F0) = .ok (.setRow 1 3 0xF0) ∧
  decode (.host 0x700300A0) = .ok (.setColumn 0 3 0xA0) ∧
  decode (.host 0x801A00C8) = .ok (.setDigit 1 2 200 true) ∧
  decode (.host 0x900900C8) = .ok (.setChar 0 1 200 true) ∧
  decode (.host 0x10000001) = .error .nonzeroField ∧
  decode (.host 0xA0000000) = .error .reservedOp ∧
  decode (.wire 0 0x03A5) = .ok (.digit2 0 0xA5) ∧
  decode (.wire 1 0x0C01) = .ok (.shutdownReg 1 0x01) ∧
  decode (.wire 0 0x0D00) = .error .unlistedOpcode

/-- The model's step, in the form its list of turns gives it (log 4, DESIGN CHOICE). When the listed turn is the controller's and
the waiting host word decodes to `i`, the step is exec of `i` once the word and the turn are used up (R33, R65). When the listed
turn is a wire word's, which no frame of this block carries and which device `a` alone latches (log 7, DESIGN CHOICE), likewise. -/
def Obligations.StepRunsTheDecodedInstruction : Prop :=
  ∀ (s : State) (i : Instr), s.cfg.legal = true → s.initDone = true →
    (∀ w ws ts, s.turns = .controller :: ts → s.commands = w :: ws → decode (.host w) = .ok i →
      step s = exec i { s with commands := ws, turns := ts }) ∧
    (∀ a w ts, s.turns = .wire a w :: ts → decode (.wire a w) = .ok i → step s = exec i { s with turns := ts })

/-- The turn when none is listed is the model's choice (log 5): the controller's while a host word waits, else the runner's on
the first batch. -/
def Obligations.DefaultTurnIsTheControllerElseTheRunner : Prop :=
  ∀ s : State, s.initDone = true →
    (s.commands ≠ [] → step { s with turns := [] } = step { s with turns := [.controller] }) ∧
    (s.commands = [] → step { s with turns := [] } = step { s with turns := [.runner 0] })

/-! ### The serial link -/

/-- SEND to a valid device drives the pins through exactly one frame and writes no other state of the block; to any other
address it is the model fault FRAME_ADDR (R100, R107). The ports end as R31 says. -/
def Obligations.SendEmitsOneFrameOrFaults : Prop :=
  ∀ (s : State) (a : Nat) (op d : Byte),
    (a < s.cfg.n → ∃ t, send a op d s = .next t ∧
      t.pinTrace = s.pinTrace ++ ([⟨.cs, .low⟩] ++ (frameBytes s.cfg.n a op d).reverse.flatMap byteEvents ++ [⟨.cs, .high⟩]) ∧
      t.ports = { cs := .high, clk := .low, din := bitLevel (if a = 0 then d.getLsbD 0 else false) } ∧
      KeepsBuffer s t ∧ KeepsRest s t) ∧
    (¬a < s.cfg.n → send a op d s = .fault .frameAddr)

/-- A frame's bytes are zero but for slot a, and read as one number, byte j at bits 8j+7..8j, they are zext(op ++ d) << 16a
(R89, R101). -/
def Obligations.FrameIsTheShiftedWord : Prop :=
  ∀ (n a : Nat) (op d : Byte), a < n →
    (frameBytes n a op d).length = 2 * n ∧
    (∀ j, j < 2 * n → (frameBytes n a op d)[j]? = some (if j = 2 * a then d else if j = 2 * a + 1 then op else 0x00)) ∧
    frameValue (frameBytes n a op d) = (wireWord op d).toNat <<< (16 * a)

/-- What DIN shows at the rising clock edges of a frame is the frame's number, most significant bit first (R57, R102 to R105;
that a receiver samples at the rising edge is the spec's general knowledge G4). -/
def Obligations.FrameIsShiftedMostSignificantBitFirst : Prop :=
  ∀ (p : Ports) (f : List Byte), p.clk = .low →
    sampled p (frameEvents f) =
      (List.range (8 * f.length)).map fun i => (frameValue f).testBit (8 * f.length - 1 - i)

/-- CS changes only at the two ends of a frame, LOW first and HIGH last, and 16N clock pulses lie between (R103, R243). -/
def Obligations.ChipSelectFramesTheClockPulses : Prop :=
  ∀ (n a : Nat) (op d : Byte),
    (frameEvents (frameBytes n a op d)).head? = some ⟨.cs, .low⟩ ∧
    (frameEvents (frameBytes n a op d)).getLast? = some ⟨.cs, .high⟩ ∧
    ((frameEvents (frameBytes n a op d)).filter fun e => e.port = .cs) = [⟨.cs, .low⟩, ⟨.cs, .high⟩] ∧
    ((frameEvents (frameBytes n a op d)).filter fun e => e = ⟨.clk, .high⟩).length = 16 * n ∧
    ((frameEvents (frameBytes n a op d)).filter fun e => e = ⟨.clk, .low⟩).length = 16 * n

/-- After a frame CS is HIGH, CLK is LOW and DIN holds bit 0 of frame[0], whatever the ports were (R31, R105). -/
def Obligations.PortsAfterAFrame : Prop :=
  ∀ (p : Ports) (b : Byte) (f : List Byte),
    (frameEvents (b :: f)).foldl Ports.drive p = { cs := .high, clk := .low, din := bitLevel (b.getLsbD 0) }

/-- A chain of 16-bit shift registers, clocked by the pin events of a frame with device 0 at DIN, leaves in each device the
word of its slot, so the latch by slot that the model uses is what the pins deliver (R106; the shift-register mechanics are the
spec's general knowledge G4 and G5, the wiring its decision D28). -/
def Obligations.PinsDeliverEachSlotToItsDevice : Prop :=
  ∀ (p : Ports) (n : Nat) (f : List Byte) (a : Nat), p.clk = .low → f.length = 2 * n → a < n →
    chainWord (sampled p (frameEvents f)) a = msbFirst (slotOp f a) ++ msbFirst (slotData f a)

/-- In a frame every device but the target gets the word 0x0000, and one frame changes at most one register of one device
(R125). -/
def Obligations.FrameChangesAtMostOneRegister : Prop :=
  ∀ (s t : State) (a : Nat) (op d : Byte), send a op d s = .next t →
    t.chips.length = s.chips.length ∧
    (∀ b, b ≠ a → slotOp (frameBytes s.cfg.n a op d) b = 0x00 ∧ slotData (frameBytes s.cfg.n a op d) b = 0x00) ∧
    ∀ (b : Nat) (c c' : Chip), s.chips[b]? = some c → t.chips[b]? = some c' →
      ∀ r, c'.get r = if b = a ∧ regOfOpcode op = some r then d else c.get r

/-- A frame does to its target what the wire command in the target's slot does, and nothing when that word is none (R106, R110
to R124). -/
def Obligations.FrameRunsTheWireCommandInItsSlot : Prop :=
  ∀ (s : State) (a : Dev) (op d : Byte), a.toNat < s.cfg.n →
    (∀ i, decode (.wire a (wireWord op d)) = .ok i →
      ∃ t u, send a.toNat op d s = .next t ∧ exec i s = .next u ∧ t.chips = u.chips) ∧
    (∀ r, decode (.wire a (wireWord op d)) = .error r →
      ∃ t, send a.toNat op d s = .next t ∧ t.chips = s.chips)

/-! ### Wire commands -/

/-- The words of DIGIT0 to DIGIT7 decode by their opcode byte, and each command completes and sets its one digit register of
the device that latches it (R111 to R118). -/
def Obligations.WireDigitCommandsSetOneDigit : Prop :=
  ∀ (s : State) (a : Dev) (d : Byte),
    (decode (.wire a (0x01#8 ++ d)) = .ok (.digit0 a d) ∧
      ∃ t, exec (.digit0 a d) s = .next t ∧ LatchesOnly s t a.toNat fun c => { c with digits := c.digits.set 0 d }) ∧
    (decode (.wire a (0x02#8 ++ d)) = .ok (.digit1 a d) ∧
      ∃ t, exec (.digit1 a d) s = .next t ∧ LatchesOnly s t a.toNat fun c => { c with digits := c.digits.set 1 d }) ∧
    (decode (.wire a (0x03#8 ++ d)) = .ok (.digit2 a d) ∧
      ∃ t, exec (.digit2 a d) s = .next t ∧ LatchesOnly s t a.toNat fun c => { c with digits := c.digits.set 2 d }) ∧
    (decode (.wire a (0x04#8 ++ d)) = .ok (.digit3 a d) ∧
      ∃ t, exec (.digit3 a d) s = .next t ∧ LatchesOnly s t a.toNat fun c => { c with digits := c.digits.set 3 d }) ∧
    (decode (.wire a (0x05#8 ++ d)) = .ok (.digit4 a d) ∧
      ∃ t, exec (.digit4 a d) s = .next t ∧ LatchesOnly s t a.toNat fun c => { c with digits := c.digits.set 4 d }) ∧
    (decode (.wire a (0x06#8 ++ d)) = .ok (.digit5 a d) ∧
      ∃ t, exec (.digit5 a d) s = .next t ∧ LatchesOnly s t a.toNat fun c => { c with digits := c.digits.set 5 d }) ∧
    (decode (.wire a (0x07#8 ++ d)) = .ok (.digit6 a d) ∧
      ∃ t, exec (.digit6 a d) s = .next t ∧ LatchesOnly s t a.toNat fun c => { c with digits := c.digits.set 6 d }) ∧
    (decode (.wire a (0x08#8 ++ d)) = .ok (.digit7 a d) ∧
      ∃ t, exec (.digit7 a d) s = .next t ∧ LatchesOnly s t a.toNat fun c => { c with digits := c.digits.set 7 d })

/-- DECODEMODE, INTENSITY, SCANLIMIT, SHUTDOWN and DISPLAYTEST decode by their opcode byte, and each completes and sets its one
register (R119 to R123). -/
def Obligations.WireControlCommandsSetOneRegister : Prop :=
  ∀ (s : State) (a : Dev) (d : Byte),
    (decode (.wire a (0x09#8 ++ d)) = .ok (.decodeMode a d) ∧
      ∃ t, exec (.decodeMode a d) s = .next t ∧ LatchesOnly s t a.toNat fun c => { c with decode := d }) ∧
    (decode (.wire a (0x0A#8 ++ d)) = .ok (.intensity a d) ∧
      ∃ t, exec (.intensity a d) s = .next t ∧ LatchesOnly s t a.toNat fun c => { c with intensity := d }) ∧
    (decode (.wire a (0x0B#8 ++ d)) = .ok (.scanLimit a d) ∧
      ∃ t, exec (.scanLimit a d) s = .next t ∧ LatchesOnly s t a.toNat fun c => { c with scanLimit := d }) ∧
    (decode (.wire a (0x0C#8 ++ d)) = .ok (.shutdownReg a d) ∧
      ∃ t, exec (.shutdownReg a d) s = .next t ∧ LatchesOnly s t a.toNat fun c => { c with shutdown := d }) ∧
    (decode (.wire a (0x0F#8 ++ d)) = .ok (.displayTest a d) ∧
      ∃ t, exec (.displayTest a d) s = .next t ∧ LatchesOnly s t a.toNat fun c => { c with test := d })

/-- NOOP changes nothing (R110), and a word with an unlisted opcode that reaches a chip changes no register (R124). -/
def Obligations.NoopAndUnlistedWordsChangeNothing : Prop :=
  (∀ (s : State) (a : Dev) (d : Byte), decode (.wire a (0x00#8 ++ d)) = .ok (.noop a d) ∧ exec (.noop a d) s = .next s) ∧
  ∀ (s : State) (a : Dev) (op d : Byte) (ts : List Turn), s.cfg.legal = true → s.initDone = true → UnlistedOpcode op →
    s.turns = .wire a (wireWord op d) :: ts → step s = .next { s with turns := ts }

/-! ### Power and configuration operations -/

/-- The words of SHUTDOWN are those of the table; it sends one SHUTDOWN command with data 0x00 for s = 1 and 0x01 for s = 0,
and an invalid address does nothing (R130); ON and OFF are its two cases (R131, R132). -/
def Obligations.ShutdownSendsTheInverseOfItsFlag : Prop :=
  ∀ (s : State) (a : Dev),
    (∀ w, decode (.host w) = .ok (.shutdown a false) ↔ w = 0x10000000#32 ||| a.setWidth 32 <<< 20) ∧
    (∀ w, decode (.host w) = .ok (.shutdown a true) ↔ w = 0x10080000#32 ||| a.setWidth 32 <<< 20) ∧
    (a.toNat < s.cfg.n →
      (∃ t, exec (.shutdown a true) s = .next t ∧ Sends s t [(a.toNat, 0x0C, 0x00)] ∧ KeepsBuffer s t) ∧
      (∃ t, exec (.shutdown a false) s = .next t ∧ Sends s t [(a.toNat, 0x0C, 0x01)] ∧ KeepsBuffer s t) ∧
      (∃ t, exec (.on a) s = .next t ∧ Sends s t [(a.toNat, 0x0C, 0x01)] ∧ KeepsBuffer s t) ∧
      (∃ t, exec (.off a) s = .next t ∧ Sends s t [(a.toNat, 0x0C, 0x00)] ∧ KeepsBuffer s t)) ∧
    (¬a.toNat < s.cfg.n →
      exec (.shutdown a true) s = .next s ∧ exec (.shutdown a false) s = .next s ∧
      exec (.on a) s = .next s ∧ exec (.off a) s = .next s)

/-- Each has exactly its one word; SETSCANLIMIT sends SCANLIMIT and SETBRIGHTNESS sends INTENSITY with the operand byte
unchanged, and an invalid address does nothing (R133, R134). -/
def Obligations.ScanLimitAndBrightnessPassThrough : Prop :=
  ∀ (s : State) (a : Dev) (v : Byte),
    (∀ w, decode (.host w) = .ok (.setScanLimit a v) ↔ w = 0x20000000#32 ||| a.setWidth 32 <<< 20 ||| v.setWidth 32) ∧
    (∀ w, decode (.host w) = .ok (.setBrightness a v) ↔ w = 0x30000000#32 ||| a.setWidth 32 <<< 20 ||| v.setWidth 32) ∧
    (a.toNat < s.cfg.n →
      (∃ t, exec (.setScanLimit a v) s = .next t ∧ Sends s t [(a.toNat, 0x0B, v)] ∧ KeepsBuffer s t) ∧
      (∃ t, exec (.setBrightness a v) s = .next t ∧ Sends s t [(a.toNat, 0x0A, v)] ∧ KeepsBuffer s t)) ∧
    (¬a.toNat < s.cfg.n → exec (.setScanLimit a v) s = .next s ∧ exec (.setBrightness a v) s = .next s)

/-- With a device address of N or more every per-device operation but CLEAR does nothing at all, in both modes, and CLEAR does
nothing when CLEAR_GUARD = 1 (R51). -/
def Obligations.InvalidAddressDoesNothing : Prop :=
  ∀ (s : State) (a : Dev), ¬a.toNat < s.cfg.n →
    (∀ f, exec (.shutdown a f) s = .next s) ∧ exec (.on a) s = .next s ∧ exec (.off a) s = .next s ∧
    (∀ v, exec (.setScanLimit a v) s = .next s) ∧ (∀ v, exec (.setBrightness a v) s = .next s) ∧
    (∀ r c f, exec (.setLed a r c f) s = .next s) ∧ (∀ r v, exec (.setRow a r v) s = .next s) ∧
    (∀ c v, exec (.setColumn a c v) s = .next s) ∧ (∀ r v p, exec (.setDigit a r v p) s = .next s) ∧
    (∀ r v p, exec (.setChar a r v p) s = .next s) ∧
    (s.cfg.clearGuard = true → exec (.clear a) s = .next s)

/-! ### State-mutation operations -/

/-- CLEAR a has exactly one word; it writes 0x00 to the device's eight bytes and sends DIGIT0 to DIGIT7 with data 0 in
ascending order; with an invalid address it does nothing when guarded and is the model fault CLEAR_OUT_OF_RANGE when not
(R150). -/
def Obligations.ClearBlanksEveryRow : Prop :=
  ∀ (s : State) (a : Dev),
    (∀ w, decode (.host w) = .ok (.clear a) ↔ w = 0x40000000#32 ||| a.setWidth 32 <<< 20) ∧
    (a.toNat < s.cfg.n → ∃ t, exec (.clear a) s = .next t ∧
      Sends s t [(a.toNat, 0x01, 0), (a.toNat, 0x02, 0), (a.toNat, 0x03, 0), (a.toNat, 0x04, 0), (a.toNat, 0x05, 0),
        (a.toNat, 0x06, 0), (a.toNat, 0x07, 0), (a.toNat, 0x08, 0)] ∧
      (∀ r, Memory.read t.buf (bufIndex a.toNat r) = some 0x00) ∧
      (∀ i, (∀ r, i ≠ bufIndex a.toNat r) → Memory.read t.buf i = Memory.read s.buf i)) ∧
    (¬a.toNat < s.cfg.n → s.cfg.clearGuard = true → exec (.clear a) s = .next s) ∧
    (¬a.toNat < s.cfg.n → s.cfg.clearGuard = false → exec (.clear a) s = .fault .clearOutOfRange)

/-- SETLED has exactly one word for its operands; it stores the row byte with bit 7 - col made equal to `state` and every other
bit as it was, and sends that byte as DIGIT(row); an invalid address does nothing (R151). -/
def Obligations.SetLedChangesOneBit : Prop :=
  ∀ (s : State) (a : Dev) (row col : Idx) (state : Bool),
    (∀ w, decode (.host w) = .ok (.setLed a row col state) ↔
      w = 0x50000000#32 ||| a.setWidth 32 <<< 20 ||| (if state then 0x00080000#32 else 0) |||
        row.setWidth 32 <<< 16 ||| col.setWidth 32 <<< 8) ∧
    (∀ b, a.toNat < s.cfg.n → Memory.read s.buf (bufIndex a.toNat row) = some b →
      ∃ t b', exec (.setLed a row col state) s = .next t ∧
        (∀ k, k < 8 → b'.getLsbD k = if k = 7 - col.toNat then state else b.getLsbD k) ∧
        Sends s t [(a.toNat, 0x01 + row.setWidth 8, b')] ∧ StoresByte s t a.toNat row b') ∧
    (¬a.toNat < s.cfg.n → exec (.setLed a row col state) s = .next s)

/-- SETROW has exactly one word for its operands; it stores the byte and sends it as DIGIT(row); an invalid address does
nothing (R152). -/
def Obligations.SetRowStoresAndSendsTheByte : Prop :=
  ∀ (s : State) (a : Dev) (row : Idx) (v : Byte),
    (∀ w, decode (.host w) = .ok (.setRow a row v) ↔
      w = 0x60000000#32 ||| a.setWidth 32 <<< 20 ||| row.setWidth 32 <<< 16 ||| v.setWidth 32) ∧
    (a.toNat < s.cfg.n → ∃ t, exec (.setRow a row v) s = .next t ∧
      Sends s t [(a.toNat, 0x01 + row.setWidth 8, v)] ∧ StoresByte s t a.toNat row v) ∧
    (¬a.toNat < s.cfg.n → exec (.setRow a row v) s = .next s)

/-- SETCOLUMN has exactly one word for its operands; it gives bit 7 - col of each row byte the value of bit 7 - row of `v`,
keeps every other bit, and sends all eight rows in ascending order; an invalid address does nothing (R153, R156). -/
def Obligations.SetColumnWritesOneBitOfEveryRow : Prop :=
  ∀ (s : State) (a : Dev) (col : Idx) (v : Byte),
    (∀ w, decode (.host w) = .ok (.setColumn a col v) ↔
      w = 0x70000000#32 ||| a.setWidth 32 <<< 20 ||| col.setWidth 32 <<< 16 ||| v.setWidth 32) ∧
    (∀ old : Idx → Byte, a.toNat < s.cfg.n → (∀ r, Memory.read s.buf (bufIndex a.toNat r) = some (old r)) →
      ∃ (t : State) (new : Idx → Byte), exec (.setColumn a col v) s = .next t ∧
        (∀ r k, k < 8 → (new r).getLsbD k = if k = 7 - col.toNat then v.getLsbD (7 - r.toNat) else (old r).getLsbD k) ∧
        Sends s t [(a.toNat, 0x01, new 0), (a.toNat, 0x02, new 1), (a.toNat, 0x03, new 2), (a.toNat, 0x04, new 3),
          (a.toNat, 0x05, new 4), (a.toNat, 0x06, new 5), (a.toNat, 0x07, new 6), (a.toNat, 0x08, new 7)] ∧
        (∀ r, Memory.read t.buf (bufIndex a.toNat r) = some (new r)) ∧
        (∀ i, (∀ r, i ≠ bufIndex a.toNat r) → Memory.read t.buf i = Memory.read s.buf i)) ∧
    (¬a.toNat < s.cfg.n → exec (.setColumn a col v) s = .next s)

/-- `SegRom(v)` is SEG_FONT[v] for v up to 127 and SEG_FONT[32] above (R60); in a legal configuration the latter is 0x00. -/
def Obligations.SegmentLookupClampsToBlank : Prop :=
  ∀ (c : Cfg) (v : Byte),
    (v.toNat ≤ 127 → some (segRom c v) = c.segFont[v.toNat]?) ∧
    (127 < v.toNat → segRom c v = c.segFont[32]) ∧
    (c.legal = true → 127 < v.toNat → segRom c v = 0x00)

/-- By the model's reading of the encoding (R80 and R84; log 8, DEDUCED: the word that R154's own example prints does not fit
them), SETDIGIT has exactly one word for its operands. It stores the font byte of `v`, with bit 7 set when dp = 1, and sends it
as DIGIT(digit), in either mode; an invalid address does nothing (R154). -/
def Obligations.SetDigitStoresTheFontByte : Prop :=
  ∀ (s : State) (a : Dev) (digit : Idx) (v : Byte) (dp : Bool),
    (∀ w, decode (.host w) = .ok (.setDigit a digit v dp) ↔
      w = 0x80000000#32 ||| a.setWidth 32 <<< 20 ||| (if dp then 0x00080000#32 else 0) |||
        digit.setWidth 32 <<< 16 ||| v.setWidth 32) ∧
    (a.toNat < s.cfg.n → ∃ t, exec (.setDigit a digit v dp) s = .next t ∧
      Sends s t [(a.toNat, 0x01 + digit.setWidth 8, if dp then segRom s.cfg v ||| 0x80 else segRom s.cfg v)] ∧
      StoresByte s t a.toNat digit (if dp then segRom s.cfg v ||| 0x80 else segRom s.cfg v)) ∧
    (¬a.toNat < s.cfg.n → exec (.setDigit a digit v dp) s = .next s)

/-- SETLED on, then off, leaves `x & ~(0x80 >> col)`, which is x exactly when the LED was off before (R155). -/
def Obligations.SetLedRoundTrip : Prop :=
  ∀ (s : State) (a : Dev) (row col : Idx) (x : Byte), a.toNat < s.cfg.n →
    Memory.read s.buf (bufIndex a.toNat row) = some x →
    ∃ t u, exec (.setLed a row col true) s = .next t ∧ exec (.setLed a row col false) t = .next u ∧
      Sends s u [(a.toNat, 0x01 + row.setWidth 8, x ||| (0x80#8 >>> col.toNat)),
        (a.toNat, 0x01 + row.setWidth 8, x &&& ~~~(0x80#8 >>> col.toNat))] ∧
      Memory.read u.buf (bufIndex a.toNat row) = some (x &&& ~~~(0x80#8 >>> col.toNat)) ∧
      (x &&& ~~~(0x80#8 >>> col.toNat) = x ↔ x.getLsbD (7 - col.toNat) = false)

/-- Reading a byte that nothing has written is the model fault UNWRITTEN_READ: SETLED stops so on such a row, and SETCOLUMN on a
device any of whose eight rows is such (R25, R205; that none of its writes stays is log 11). -/
def Obligations.UnwrittenReadIsAFault : Prop :=
  ∀ (s : State) (a : Dev) (row col : Idx) (state : Bool) (v : Byte), a.toNat < s.cfg.n →
    (Memory.read s.buf (bufIndex a.toNat row) = none → exec (.setLed a row col state) s = .fault .unwrittenRead) ∧
    ((∃ r, Memory.read s.buf (bufIndex a.toNat r) = none) → exec (.setColumn a col v) s = .fault .unwrittenRead)

/-! ### Characters and deferred row writes -/

/-- SETCHAR has exactly one word for its operands. An invalid address does nothing. In 7-segment mode it is the SETDIGIT of the
same operands. In matrix mode IDX and F are ignored: a code in 0x21..0x7E adds one batch of its own to DQ, the eight rows of
the glyph in order, and changes nothing else (R180, R183), and any other code does nothing (R182). -/
def Obligations.SetCharWritesNowOrDefers : Prop :=
  ∀ (s : State) (a : Dev) (digit : Idx) (v : Byte) (dp : Bool),
    (∀ w, decode (.host w) = .ok (.setChar a digit v dp) ↔
      w = 0x90000000#32 ||| a.setWidth 32 <<< 20 ||| (if dp then 0x00080000#32 else 0) |||
        digit.setWidth 32 <<< 16 ||| v.setWidth 32) ∧
    (¬a.toNat < s.cfg.n → exec (.setChar a digit v dp) s = .next s) ∧
    (a.toNat < s.cfg.n → s.cfg.isMatrix = false →
      ∃ t, exec (.setChar a digit v dp) s = .next t ∧ exec (.setDigit a digit v dp) s = .next t ∧
        Sends s t [(a.toNat, 0x01 + digit.setWidth 8, if dp then segRom s.cfg v ||| 0x80 else segRom s.cfg v)] ∧
        StoresByte s t a.toNat digit (if dp then segRom s.cfg v ||| 0x80 else segRom s.cfg v)) ∧
    (a.toNat < s.cfg.n → s.cfg.isMatrix = true → ∀ h : 0x21 ≤ v.toNat ∧ v.toNat ≤ 0x7E,
      ∃ b : Batch, exec (.setChar a digit v dp) s = .next { s with dq := s.dq ++ [b] } ∧ b.length = 8 ∧
        ∀ r : Idx, b[r.toNat]? = some ⟨a, r, (s.cfg.matrixFont[v.toNat - 0x21]'(by omega))[r.toNat]'(r.isLt)⟩) ∧
    (s.cfg.isMatrix = true → v.toNat ≤ 0x20 ∨ 0x7F ≤ v.toNat → exec (.setChar a digit v dp) s = .next s)

/-- A runner step takes the first entry off the chosen batch, removes the batch when it is empty, and does the SETROW of the
entry (R186). -/
def Obligations.RunnerStepServesTheFirstEntry : Prop :=
  ∀ (s : State) (k : Nat) (e : Entry) (rest : Batch) (ts : List Turn), s.cfg.legal = true → s.initDone = true →
    s.turns = .runner k :: ts → s.dq[k]? = some (e :: rest) → e.a.toNat < s.cfg.n →
    ∃ t, step s = .next t ∧
      Sends { s with turns := ts, dq := if rest = [] then s.dq.eraseIdx k else s.dq.set k rest } t
        [(e.a.toNat, 0x01 + e.r.setWidth 8, e.v)] ∧
      StoresByte s t e.a.toNat e.r e.v

/-- The last-writer-wins race: a SETROW to the row of a waiting entry and the runner step of that entry, taken in one order,
leave the entry's byte, and taken in the other, the SETROW's (R187). -/
def Obligations.DeferredWriteRacesWithANewerWrite : Prop :=
  ∀ (s : State) (k : Nat) (e : Entry) (rest : Batch) (v : Byte) (ws : List HostWord), s.cfg.legal = true →
    s.initDone = true → s.dq[k]? = some (e :: rest) → e.a.toNat < s.cfg.n →
    s.commands = hostWord 0x6 e.a false e.r 0 v :: ws →
    (∃ t, runSteps 2 { s with turns := [.controller, .runner k] } = .next t ∧ t.commands = ws ∧
      Memory.read t.buf (bufIndex e.a.toNat e.r) = some e.v) ∧
    (∃ t, runSteps 2 { s with turns := [.runner k, .controller] } = .next t ∧ t.commands = ws ∧
      Memory.read t.buf (bufIndex e.a.toNat e.r) = some v)

/-- Two batches may be served in either order: whichever batch's entry for a row runs last leaves its byte (R189). -/
def Obligations.BatchesInterleaveInAnyOrder : Prop :=
  ∀ (s : State) (a : Dev) (r : Idx) (x y : Byte) (A B : Batch), s.cfg.legal = true → s.initDone = true →
    a.toNat < s.cfg.n → A ≠ [] → B ≠ [] → s.dq = [⟨a, r, x⟩ :: A, ⟨a, r, y⟩ :: B] →
    (∃ t, runSteps 2 { s with turns := [.runner 0, .runner 1] } = .next t ∧ t.dq = [A, B] ∧
      Memory.read t.buf (bufIndex a.toNat r) = some y) ∧
    (∃ t, runSteps 2 { s with turns := [.runner 1, .runner 0] } = .next t ∧ t.dq = [A, B] ∧
      Memory.read t.buf (bufIndex a.toNat r) = some x)

/-- No instruction removes, changes or reorders a waiting row write, and only a matrix SETCHAR adds any (R27, R184). -/
def Obligations.NoInstructionCancelsADeferredWrite : Prop :=
  ∀ (i : Instr) (s t : State), exec i s = .next t →
    t.dq = s.dq ∨ (s.cfg.isMatrix = true ∧ ∃ a digit v dp b, i = .setChar a digit v dp ∧ t.dq = s.dq ++ [b])

/-! ### Reset and initialization -/

/-- What reset leaves, for every configuration and whatever the chips hold: the ports at CS HIGH, CLK LOW, DIN LOW, every
buffer byte unwritten, DQ empty, INIT_DONE 0 (R230). -/
def Obligations.ResetLeavesTheStatedValues : Prop :=
  ∀ (c : Cfg) (chips : List Chip),
    (State.resetWith c chips).cfg = c ∧ (∀ i, Memory.read (State.resetWith c chips).buf i = none) ∧
    (State.resetWith c chips).dq = [] ∧ (State.resetWith c chips).initDone = false ∧
    (State.resetWith c chips).ports = { cs := .high, clk := .low, din := .low }

/-- The reset signal, at any time between two steps, discards DQ and the buffer, clears INIT_DONE and returns the ports (R230
steps 2 to 5), and sends no teardown frame (R230). That it finds the straps as they were, and that what lies outside the block
stays, the chips, the frames observed so far, the waiting host words and the coming turns, is the model's choice (log 9). -/
def Obligations.ResetSignalDiscardsQueueAndBuffer : Prop :=
  ∀ (s : State) (ts : List Turn), s.cfg.legal = true → s.turns = .reset :: ts →
    ∃ t, step s = .next t ∧ (∀ i, Memory.read t.buf i = none) ∧ t.dq = [] ∧ t.initDone = false ∧
      t.ports = { cs := .high, clk := .low, din := .low } ∧
      t.cfg = s.cfg ∧ t.chips = s.chips ∧ t.frames = s.frames ∧ t.commands = s.commands ∧ t.turns = ts

/-- Until INIT_DONE = 1 a step is the whole initialization sequence: 12 frames per device, device after device in ascending
order, every buffer byte cleared, and no host word accepted, no runner step taken, no turn used up (R232, R233). -/
def Obligations.InitializationEmitsItsTwelveFramesPerDevice : Prop :=
  ∀ (s : State), s.cfg.legal = true → s.initDone = false → (∀ ts, s.turns ≠ .reset :: ts) →
    ∃ t, step s = .next t ∧ t.initDone = true ∧ Emitted s t ((List.range s.cfg.n).flatMap initCommands) ∧
      t.frames.length = s.frames.length + 12 * s.cfg.n ∧
      (∀ a, a < s.cfg.n → ∀ r : Idx, Memory.read t.buf (bufIndex a r) = some 0x00) ∧
      t.cfg = s.cfg ∧ t.dq = s.dq ∧ t.commands = s.commands ∧ t.turns = s.turns

/-- The state after initialization: every buffer byte 0x00, the ports HIGH, LOW, LOW, every chip's TEST 0, SCANLIMIT 7, DECODE
0, digits 0 and SHUTDOWN 0, and its INTENSITY what it was (R234). -/
def Obligations.StateAfterInitialization : Prop :=
  ∀ (s : State), s.cfg.legal = true → s.initDone = false → (∀ ts, s.turns ≠ .reset :: ts) → s.dq = [] →
    s.chips.length = s.cfg.n →
    ∃ t, step s = .next t ∧ t.initDone = true ∧ t.dq = [] ∧ t.chips.length = s.cfg.n ∧
      (∀ i, i < 8 * s.cfg.n → Memory.read t.buf i = some 0x00) ∧
      t.ports = { cs := .high, clk := .low, din := .low } ∧
      ∀ (a : Nat) (c c' : Chip), s.chips[a]? = some c → t.chips[a]? = some c' →
        c' = { digits := Vector.replicate 8 0x00, decode := 0x00, intensity := c.intensity, scanLimit := 0x07,
               shutdown := 0x00, test := 0x00 }

/-- A machine whose N is outside 1..256 is refused (R21). That one whose SEG_FONT[32] is not 0x00 is refused too, and that it is
each step that refuses, is the model's choice (log 14). -/
def Obligations.IllegalConfigurationIsRefused : Prop :=
  ∀ s : State, (¬(1 ≤ s.cfg.n ∧ s.cfg.n ≤ 256) ∨ s.cfg.segFont[32] ≠ 0x00) →
    step s = .refused .illegalConfiguration

/-! ### The whole machine -/

/-- Reset leaves a good state, for every legal configuration and every content of its chips, and so does `State.reset`, whose
N, mode and chip contents are the model's choice (log 1 to 3). -/
def Obligations.ResetStateIsGood : Prop :=
  (∀ (c : Cfg) (chips : List Chip), c.legal = true → chips.length = c.n → Good (State.resetWith c chips)) ∧
  Good State.reset

/-- Every step from a good state that answers a next state leaves a good state: the canonical buffer, the buffer that mirrors
the last DIGIT commands, the well-formed queue, the idle ports. -/
def Obligations.EveryStepKeepsTheStateGood : Prop :=
  ∀ s t : State, Good s → step s = .next t → Good t

/-- The buffer invariant by itself: between any two steps after initialization, every buffer byte equals the data byte of the
last DIGIT(r) command the block sent to its device (R23). -/
def Obligations.BufferHoldsTheLastDigitSent : Prop :=
  ∀ s t : State, BufferMirrorsFrames s → step s = .next t → BufferMirrorsFrames t

/-- As long as no other driver writes a chip, every chip's digit registers stay equal to its buffer bytes (R23, R106, R71). -/
def Obligations.ChipsFollowTheBuffer : Prop :=
  ∀ s t : State, s.chips.length = s.cfg.n → (∀ a w ts, s.turns ≠ .wire a w :: ts) → ChipsMirrorBuffer s →
    step s = .next t → t.chips.length = t.cfg.n ∧ ChipsMirrorBuffer t

/-- From a good state a step always answers a next state, but in one case: with CLEAR_GUARD = 0, when the controller moves and
the waiting host word is a CLEAR of an address of N or more, the step is the model fault CLEAR_OUT_OF_RANGE. So FRAME_ADDR and
UNWRITTEN_READ cannot happen, and with CLEAR_GUARD = 1 no fault can (R205). -/
def Obligations.GoodStatesNeverFaultWhenGuarded : Prop :=
  ∀ s : State, Good s →
    (∃ t, step s = .next t) ∨
    (s.cfg.clearGuard = false ∧ s.initDone = true ∧ (s.turns = [] ∨ ∃ ts, s.turns = .controller :: ts) ∧
      (∃ w ws a, s.commands = w :: ws ∧ decode (.host w) = .ok (.clear a) ∧ ¬a.toNat < s.cfg.n) ∧
      step s = .fault .clearOutOfRange)

/-- With CLEAR_GUARD = 1 every run from a good state completes, whatever turns are listed: a complete state is reached within
`stepsLeft` steps (R246), DQ emptied by the runner or discarded by a listed reset (R230). That the runner is served once the
listed turns are used up is the model's choice of fairness (log 5). -/
def Obligations.EveryRunCompletes : Prop :=
  ∀ s : State, Good s → s.cfg.clearGuard = true →
    ∃ k t, k ≤ stepsLeft s ∧ runSteps k s = .next t ∧ Complete t

/-- With CLEAR_GUARD = 1 and no reset listed, every row write that waits in a good state runs (R184, R188): a run completes
within `stepsLeft` steps in which the runner takes every waiting entry, as often as it waits, and those of one batch in their
order; and a step that takes an entry stores its byte and sends it (R186). That the runner is served once the listed turns are
used up is the model's choice of fairness (log 5). -/
def Obligations.EveryWaitingWriteIsServed : Prop :=
  (∀ s : State, Good s → s.cfg.clearGuard = true → Turn.reset ∉ s.turns →
    ∃ k t, k ≤ stepsLeft s ∧ runSteps k s = .next t ∧ Complete t ∧ s.dq.flatten.Subperm (servedIn k s) ∧
      ∀ b ∈ s.dq, b.Sublist (servedIn k s)) ∧
  ∀ (s : State) (e : Entry), Good s → servedNow s = some e →
    ∃ t, step s = .next t ∧ Emitted s t [(e.a.toNat, 0x01 + e.r.setWidth 8, e.v)] ∧ StoresByte s t e.a.toNat e.r e.v

/-- No step changes the configuration: not the straps (R20), not the font ROMs (R64). That a reset finds the straps as they were
is the model's choice (log 9). -/
def Obligations.ConfigurationNeverChanges : Prop :=
  ∀ s t : State, step s = .next t → t.cfg = s.cfg

/-- No instruction changes the configuration, INIT_DONE, the waiting host words or the coming turns, and the buffer bytes and
the chip it changes are those of the device it names (R24, R125). -/
def Obligations.InstructionsTouchOnlyTheirDevice : Prop :=
  ∀ (i : Instr) (s t : State), exec i s = .next t →
    t.cfg = s.cfg ∧ t.initDone = s.initDone ∧ t.commands = s.commands ∧ t.turns = s.turns ∧
    (∀ j, (∀ r, j ≠ bufIndex i.device.toNat r) → Memory.read t.buf j = Memory.read s.buf j) ∧
    (∀ b, b ≠ i.device.toNat → t.chips[b]? = s.chips[b]?)

/-- Every frame a step adds carries one listed wire command to one valid device, and after initialization never DECODEMODE or
DISPLAYTEST, so no host command can set the display test (R87, R93, R212). -/
def Obligations.OnlyListedOpcodesAreSent : Prop :=
  ∀ s t : State, step s = .next t →
    ∃ xs : List Sent, Emitted s t xs ∧ ∀ x ∈ xs, x.1 < s.cfg.n ∧
      x.2.1 ∈ [0x01#8, 0x02, 0x03, 0x04, 0x05, 0x06, 0x07, 0x08, 0x09, 0x0A, 0x0B, 0x0C, 0x0F] ∧
      (s.initDone = true → x.2.1 ≠ 0x09 ∧ x.2.1 ≠ 0x0F)
end

