-- ==== Sys2Proof/Laws/Decode.lean ====
section
/-! SUPPORT. Laws/Decode.lean: each field of an assembled word is the field it was assembled from. -/

namespace Sys2Proof

section fields
variable (op : BitVec 4) (a : Dev) (f : Bool) (idx col : Idx) (d : Byte)

@[simp] theorem fieldOp_hostWord : fieldOp (hostWord op a f idx col d) = op := by
  ext i hi
  have : i < 4 := hi
  interval_cases i <;> simp [fieldOp, hostWord]

@[simp] theorem fieldAddr_hostWord : fieldAddr (hostWord op a f idx col d) = a := by
  ext i hi
  have : i < 8 := hi
  interval_cases i <;> simp [fieldAddr, hostWord]

@[simp] theorem fieldF_hostWord : fieldF (hostWord op a f idx col d) = f := by
  simp [fieldF, hostWord]

@[simp] theorem fieldIdx_hostWord : fieldIdx (hostWord op a f idx col d) = idx := by
  ext i hi
  have : i < 3 := hi
  interval_cases i <;> simp [fieldIdx, hostWord]

@[simp] theorem fieldRsv_hostWord : fieldRsv (hostWord op a f idx col d) = 0 := by
  ext i hi
  have : i < 5 := hi
  interval_cases i <;> simp [fieldRsv, hostWord]

@[simp] theorem fieldCol_hostWord : fieldCol (hostWord op a f idx col d) = col := by
  ext i hi
  have : i < 3 := hi
  interval_cases i <;> simp [fieldCol, hostWord]

@[simp] theorem fieldData_hostWord : fieldData (hostWord op a f idx col d) = d := by
  ext i hi
  have : i < 8 := hi
  interval_cases i <;> simp [fieldData, hostWord]

end fields

@[simp] theorem wireOp_wireWord (op d : Byte) : wireOp (wireWord op d) = op := by
  ext i hi
  have : i < 8 := hi
  interval_cases i <;> simp [wireOp, wireWord]

@[simp] theorem wireData_wireWord (op d : Byte) : wireData (wireWord op d) = d := by
  ext i hi
  have : i < 8 := hi
  interval_cases i <;> simp [wireData, wireWord]

end Sys2Proof
end

