-- ==== Sys2Proof/Laws/Frame.lean ====
section
/-! SUPPORT. Laws/Frame.lean: the frame of one wire command, its slots, and what a chip does with a slot. -/

namespace Sys2Proof.Machine

@[simp] theorem frameBytes_length (n a : Nat) (op d : Byte) : (frameBytes n a op d).length = 2 * n := by
  simp [frameBytes]

theorem frameBytes_getElem? (n a : Nat) (op d : Byte) (j : Nat) (h : j < 2 * n) :
    (frameBytes n a op d)[j]? = some (if j = 2 * a then d else if j = 2 * a + 1 then op else 0x00) := by
  simp [frameBytes, List.getElem?_range h]

/-- A slot of the frame: the target's holds the command, every other holds NOOP with data 0 (R89). -/
theorem slotOp_frameBytes (n a : Nat) (op d : Byte) (b : Nat) (h : a < n) :
    slotOp (frameBytes n a op d) b = if b = a then op else 0x00 := by
  unfold slotOp
  by_cases hb : 2 * b + 1 < 2 * n
  · rw [List.getD_eq_getElem?_getD, frameBytes_getElem? _ _ _ _ _ hb]
    have : ¬(2 * b + 1 = 2 * a) := by omega
    by_cases hba : b = a
    · simp [hba]
    · have : ¬(2 * b + 1 = 2 * a + 1) := by omega
      simp [*]
  · rw [List.getD_eq_default _ _ (by simp; omega)]
    simp [show b ≠ a by omega]

theorem slotData_frameBytes (n a : Nat) (op d : Byte) (b : Nat) (h : a < n) :
    slotData (frameBytes n a op d) b = if b = a then d else 0x00 := by
  unfold slotData
  by_cases hb : 2 * b < 2 * n
  · rw [List.getD_eq_getElem?_getD, frameBytes_getElem? _ _ _ _ _ hb]
    have : ¬(2 * b = 2 * a + 1) := by omega
    by_cases hba : b = a
    · simp [hba]
    · have : ¬(2 * b = 2 * a) := by omega
      simp [*]
  · rw [List.getD_eq_default _ _ (by simp; omega)]
    simp [show b ≠ a by omega]

@[simp] theorem regOfOpcode_opDigit (r : Idx) : regOfOpcode (opDigit r) = some (.digit r) := by
  revert r; decide

@[simp] theorem latch_noop (d : Byte) (c : Chip) : c.latch 0#8 d = c := rfl

@[simp] theorem latch_opDigit (r : Idx) (d : Byte) (c : Chip) : c.latch (opDigit r) d = c.put (.digit r) d := by
  simp [Chip.latch]

@[simp] theorem get_put_same (r : ChipReg) (d : Byte) (c : Chip) : (c.put r d).get r = d := by
  cases r <;> simp [Chip.put, Chip.get]

theorem get_put_ne (r q : ChipReg) (d : Byte) (c : Chip) (h : q ≠ r) : (c.put r d).get q = c.get q := by
  cases r <;> cases q <;> simp_all [Chip.put, Chip.get]
  rename_i k m
  rw [Vector.getElem_set_ne]
  intro e
  exact h (BitVec.eq_of_toNat_eq e).symm

/-- A frame reaches its target only (R125). -/
theorem emit_frameBytes_chips (s : State) (n a : Nat) (op d : Byte) (h : a < n) (b : Nat) :
    (emit (frameBytes n a op d) s).chips[b]? = (s.chips[b]?).map (if a = b then Chip.latch op d else id) := by
  simp only [emit, List.getElem?_mapIdx, slotOp_frameBytes _ _ _ _ _ h, slotData_frameBytes _ _ _ _ _ h]
  by_cases hb : b = a
  · subst hb; simp
  · have : ¬(a = b) := fun e => hb e.symm
    simp [hb, this]

end Sys2Proof.Machine
end

