-- ==== Sys2Proof/Laws/Memory.lean ====
section
/-! SUPPORT. Laws/Memory.lean: the laws of the buffer's two operations. -/

namespace Sys2Proof.Machine

@[simp] theorem Memory.read_nil (i : Nat) : Memory.read [] i = none := rfl

@[simp] theorem Memory.read_cons (j : Nat) (b : Byte) (m : Memory) (i : Nat) :
    Memory.read ((j, b) :: m) i = if i = j then some b else Memory.read m i := rfl

theorem Memory.read_write (m : Memory) (i : Nat) (v : Byte) (j : Nat) :
    Memory.read (Memory.write m i v) j = if j = i then some v else Memory.read m j := by
  induction m with
  | nil => simp [Memory.write]
  | cons p m ih =>
    obtain ⟨k, b⟩ := p
    simp only [Memory.write]
    split
    · simp
    · split
      · subst k
        by_cases h : j = i <;> simp [h]
      · by_cases hk : j = k
        · subst hk
          have : j ≠ i := by omega
          simp [this]
        · simp [hk, ih]

@[simp] theorem Memory.read_write_same (m : Memory) (i : Nat) (v : Byte) :
    Memory.read (Memory.write m i v) i = some v := by simp [Memory.read_write]

theorem Memory.read_write_ne (m : Memory) {i j : Nat} (v : Byte) (h : j ≠ i) :
    Memory.read (Memory.write m i v) j = Memory.read m j := by simp [Memory.read_write, h]

/-- The canonical form, one entry at a time: the tail is canonical and its first index, if any, is greater. -/
theorem Memory.wf_cons (i : Nat) (v : Byte) (m : Memory) :
    Memory.wf ((i, v) :: m) = true ↔ (∀ p ∈ m.head?, i < p.1) ∧ Memory.wf m = true := by
  cases m with
  | nil => simp [Memory.wf]
  | cons p m => simp [Memory.wf]

/-- The first index after a write is the old first index or the index written. -/
theorem Memory.head_write (m : Memory) (i : Nat) (v : Byte) (k : Nat) (hk : k < i) (hm : ∀ p ∈ m.head?, k < p.1) :
    ∀ p ∈ (Memory.write m i v).head?, k < p.1 := by
  cases m with
  | nil => simpa [Memory.write] using hk
  | cons q m =>
    simp only [Memory.write]
    split
    · simpa using hk
    · split
      · simpa using hk
      · simpa using hm

/-- A write keeps the canonical form. -/
theorem Memory.wf_write (m : Memory) (i : Nat) (v : Byte) (h : Memory.wf m = true) :
    Memory.wf (Memory.write m i v) = true := by
  induction m with
  | nil => rfl
  | cons p m ih =>
    obtain ⟨k, b⟩ := p
    have ⟨hk, hm⟩ := (Memory.wf_cons k b m).1 h
    simp only [Memory.write]
    split
    next hlt => exact (Memory.wf_cons ..).2 ⟨by simpa using hlt, h⟩
    next =>
      split
      next heq => subst heq; exact (Memory.wf_cons ..).2 ⟨hk, hm⟩
      next => exact (Memory.wf_cons ..).2 ⟨Memory.head_write m i v k (by omega) hk, ih hm⟩

end Sys2Proof.Machine
end

