-- ==== Sys2Proof/Laws/State.lean ====
section
/-! SUPPORT. Laws/State.lean: the fields after each named update of the state, one lemma per field per update. -/

namespace Sys2Proof.Machine

section setByte
variable (i : Nat) (v : Byte) (s : State)
@[simp] theorem setByte_cfg : (setByte i v s).cfg = s.cfg := rfl
@[simp] theorem setByte_buf : (setByte i v s).buf = Memory.write s.buf i v := rfl
@[simp] theorem setByte_dq : (setByte i v s).dq = s.dq := rfl
@[simp] theorem setByte_initDone : (setByte i v s).initDone = s.initDone := rfl
@[simp] theorem setByte_ports : (setByte i v s).ports = s.ports := rfl
@[simp] theorem setByte_chips : (setByte i v s).chips = s.chips := rfl
@[simp] theorem setByte_frames : (setByte i v s).frames = s.frames := rfl
@[simp] theorem setByte_commands : (setByte i v s).commands = s.commands := rfl
@[simp] theorem setByte_turns : (setByte i v s).turns = s.turns := rfl
end setByte

section emit
variable (f : List Byte) (s : State)
@[simp] theorem emit_cfg : (emit f s).cfg = s.cfg := rfl
@[simp] theorem emit_buf : (emit f s).buf = s.buf := rfl
@[simp] theorem emit_dq : (emit f s).dq = s.dq := rfl
@[simp] theorem emit_initDone : (emit f s).initDone = s.initDone := rfl
@[simp] theorem emit_ports : (emit f s).ports = (frameEvents f).foldl Ports.drive s.ports := rfl
@[simp] theorem emit_chips :
    (emit f s).chips = s.chips.mapIdx fun a c => c.latch (slotOp f a) (slotData f a) := rfl
@[simp] theorem emit_frames : (emit f s).frames = s.frames ++ [f] := rfl
@[simp] theorem emit_commands : (emit f s).commands = s.commands := rfl
@[simp] theorem emit_turns : (emit f s).turns = s.turns := rfl
end emit

section latchReg
variable (a : Nat) (r : ChipReg) (d : Byte) (s : State)
@[simp] theorem latchReg_cfg : (latchReg a r d s).cfg = s.cfg := rfl
@[simp] theorem latchReg_buf : (latchReg a r d s).buf = s.buf := rfl
@[simp] theorem latchReg_dq : (latchReg a r d s).dq = s.dq := rfl
@[simp] theorem latchReg_initDone : (latchReg a r d s).initDone = s.initDone := rfl
@[simp] theorem latchReg_ports : (latchReg a r d s).ports = s.ports := rfl
@[simp] theorem latchReg_chips : (latchReg a r d s).chips = s.chips.modify a (Chip.put r d) := rfl
@[simp] theorem latchReg_frames : (latchReg a r d s).frames = s.frames := rfl
@[simp] theorem latchReg_commands : (latchReg a r d s).commands = s.commands := rfl
@[simp] theorem latchReg_turns : (latchReg a r d s).turns = s.turns := rfl
end latchReg

section defer
variable (b : Batch) (s : State)
@[simp] theorem defer_cfg : (defer b s).cfg = s.cfg := rfl
@[simp] theorem defer_buf : (defer b s).buf = s.buf := rfl
@[simp] theorem defer_dq : (defer b s).dq = s.dq ++ [b] := rfl
@[simp] theorem defer_initDone : (defer b s).initDone = s.initDone := rfl
@[simp] theorem defer_ports : (defer b s).ports = s.ports := rfl
@[simp] theorem defer_chips : (defer b s).chips = s.chips := rfl
@[simp] theorem defer_frames : (defer b s).frames = s.frames := rfl
@[simp] theorem defer_commands : (defer b s).commands = s.commands := rfl
@[simp] theorem defer_turns : (defer b s).turns = s.turns := rfl
end defer

section reboot
variable (s : State)
@[simp] theorem reboot_cfg : (reboot s).cfg = s.cfg := rfl
@[simp] theorem reboot_buf : (reboot s).buf = [] := rfl
@[simp] theorem reboot_dq : (reboot s).dq = [] := rfl
@[simp] theorem reboot_initDone : (reboot s).initDone = false := rfl
@[simp] theorem reboot_ports : (reboot s).ports = Ports.atReset := rfl
@[simp] theorem reboot_chips : (reboot s).chips = s.chips := rfl
@[simp] theorem reboot_frames : (reboot s).frames = s.frames := rfl
@[simp] theorem reboot_commands : (reboot s).commands = s.commands := rfl
@[simp] theorem reboot_turns : (reboot s).turns = s.turns := rfl
end reboot

section resetWith
variable (c : Cfg) (chips : List Chip)
@[simp] theorem resetWith_cfg : (State.resetWith c chips).cfg = c := rfl
@[simp] theorem resetWith_buf : (State.resetWith c chips).buf = [] := rfl
@[simp] theorem resetWith_dq : (State.resetWith c chips).dq = [] := rfl
@[simp] theorem resetWith_initDone : (State.resetWith c chips).initDone = false := rfl
@[simp] theorem resetWith_ports : (State.resetWith c chips).ports = Ports.atReset := rfl
@[simp] theorem resetWith_chips : (State.resetWith c chips).chips = chips := rfl
@[simp] theorem resetWith_frames : (State.resetWith c chips).frames = [] := rfl
@[simp] theorem resetWith_commands : (State.resetWith c chips).commands = [] := rfl
@[simp] theorem resetWith_turns : (State.resetWith c chips).turns = [] := rfl
end resetWith

end Sys2Proof.Machine
end

