-- ==== Sys2Proof/Laws/Ops.lean ====
section
/-! SUPPORT. Laws/Ops.lean: one lemma for each shared operation, saying once what it does. Later proofs cite these and do not
unfold the operations. -/

namespace Sys2Proof.Machine

/-! ### Sequencing -/

@[simp] theorem andThen_next (s : State) (k : State → Result) : andThen (.next s) k = k s := rfl
@[simp] theorem andThen_fault (f : Fault) (k : State → Result) : andThen (.fault f) k = .fault f := rfl
@[simp] theorem andThen_refused (q : Refusal) (k : State → Result) : andThen (.refused q) k = .refused q := rfl

/-- A sequence answers a next state exactly when both parts do. -/
theorem andThen_eq_next (r : Result) (k : State → Result) (t : State) :
    andThen r k = .next t ↔ ∃ s, r = .next s ∧ k s = .next t := by
  cases r <;> simp [andThen]

/-! ### The ports after a frame -/

theorem bitEvents_ports (x : Bool) (p : Ports) :
    (bitEvents x).foldl Ports.drive p = { cs := p.cs, clk := .low, din := bitLevel x } := rfl

theorem byteEvents_ports (b : Byte) (p : Ports) :
    (byteEvents b).foldl Ports.drive p = { cs := p.cs, clk := .low, din := bitLevel (b.getLsbD 0) } := by
  simp only [byteEvents, msbFirst, List.map_cons, List.map_nil, List.flatMap_cons, List.flatMap_nil, List.foldl_append,
    bitEvents_ports, List.foldl_nil]

theorem bytesEvents_ports (bs : List Byte) (p : Ports) (hp : p.clk = .low) :
    ((bs.flatMap byteEvents).foldl Ports.drive p).cs = p.cs ∧
      ((bs.flatMap byteEvents).foldl Ports.drive p).clk = .low := by
  induction bs generalizing p with
  | nil => exact ⟨rfl, hp⟩
  | cons b bs ih =>
    rw [List.flatMap_cons, List.foldl_append, byteEvents_ports]
    exact ih _ rfl

/-- The clock is low after at least one byte, whatever it was before. -/
theorem frameEvents_idle (f : List Byte) (p : Ports) (h : f ≠ []) :
    ((frameEvents f).foldl Ports.drive p).idle = true := by
  have hr : f.reverse ≠ [] := by simpa using h
  obtain ⟨b, bs, hb⟩ := List.exists_cons_of_ne_nil hr
  simp only [frameEvents, hb, List.foldl_cons, List.flatMap_cons, List.foldl_append, byteEvents_ports]
  have hclk := (bytesEvents_ports bs { cs := .low, clk := .low, din := bitLevel (b.getLsbD 0) } rfl).2
  simpa [Ports.idle, Ports.drive] using hclk

/-! ### What a composite of sends has done -/

theorem chipAfter_append (a : Nat) (xs ys : List Sent) (c : Chip) :
    chipAfter a (xs ++ ys) c = chipAfter a ys (chipAfter a xs c) := by
  simp [chipAfter, List.foldl_append]

theorem Sends.refl (s : State) : Sends s s [] := by
  refine ⟨by simp [Emitted], fun a => ?_, fun _ => rfl, by simp, rfl, rfl, rfl, rfl, rfl⟩
  cases h : s.chips[a]? <;> rfl

theorem Sends.trans {s t u : State} {xs ys : List Sent} (h : Sends s t xs) (h' : Sends t u ys) :
    Sends s u (xs ++ ys) := by
  obtain ⟨e, r, p, q, c⟩ := h
  obtain ⟨e', r', p', q', c'⟩ := h'
  refine ⟨?_, ?_, ?_, ?_, ?_⟩
  · simp only [Emitted] at *
    rw [e', e, c.1, List.map_append, List.append_assoc]
  · intro a
    rw [r' a, r a, Option.map_map]
    congr 1
    funext x
    exact (chipAfter_append a xs ys x).symm
  · intro hn
    obtain ⟨hx, hy⟩ := List.append_eq_nil_iff.1 hn
    rw [p' hy, p hx]
  · intro hn
    by_cases hy : ys = []
    · rw [p' hy]
      exact q fun hx => hn (by simp [hx, hy])
    · exact q' hy
  · obtain ⟨a1, a2, a3, a4, a5⟩ := c
    obtain ⟨b1, b2, b3, b4, b5⟩ := c'
    exact ⟨b1.trans a1, b2.trans a2, b3.trans a3, b4.trans a4, b5.trans a5⟩

/-! ### SEND -/

theorem emit_sends (s : State) (a : Nat) (op d : Byte) (h : valid s a) :
    Sends s (emit (frameBytes s.cfg.n a op d) s) [(a, op, d)] := by
  refine ⟨rfl, fun b => ?_, by simp, fun _ => ?_, rfl, rfl, rfl, rfl, rfl⟩
  · rw [emit_frameBytes_chips s _ a op d h]
    by_cases hb : a = b
    · subst hb
      congr 1
      funext c
      simp [chipAfter]
    · have hid : chipAfter b [(a, op, d)] = id := by funext c; simp [chipAfter, hb]
      simp [hb, hid]
  · apply frameEvents_idle
    intro hn
    have := congrArg List.length hn
    simp at this
    exact absurd h (by simp [valid, this])

/-- SEND to a valid device: one frame, and no buffer byte changes. -/
theorem send_next (s : State) (a : Nat) (op d : Byte) (h : valid s a) :
    ∃ t, send a op d s = .next t ∧ Sends s t [(a, op, d)] ∧ t.buf = s.buf :=
  ⟨_, by simp [send, h], emit_sends s a op d h, rfl⟩

/-- SEND to an address of N or more is the model fault FRAME_ADDR. -/
theorem send_fault (s : State) (a : Nat) (op d : Byte) (h : ¬valid s a) : send a op d s = .fault .frameAddr := by
  simp [send, h]

/-! ### The buffer -/

theorem bufIndex_lt {n a : Nat} (r : Idx) (h : a < n) : bufIndex a r < 8 * n := by
  have := r.isLt
  simp only [bufIndex]
  omega

theorem bufIndex_inj {a b : Nat} {r q : Idx} (h : bufIndex a r = bufIndex b q) : a = b ∧ r = q := by
  have hr := r.isLt
  have hq := q.isLt
  simp only [bufIndex] at h
  refine ⟨by omega, BitVec.eq_of_toNat_eq (by omega)⟩

/-- Every index of the buffer belongs to one row of one device (R52). -/
theorem bufIndex_surj {n i : Nat} (h : i < 8 * n) : ∃ a r, a < n ∧ bufIndex a r = i := by
  refine ⟨i / 8, BitVec.ofNat 3 (i % 8), by omega, ?_⟩
  simp only [bufIndex, BitVec.toNat_ofNat]
  omega

theorem writeByte_next (s : State) (i : Nat) (v : Byte) (h : i < 8 * s.cfg.n) :
    writeByte i v s = .next (setByte i v s) := by simp [writeByte, h]

theorem readByte_ok (s : State) (i : Nat) (b : Byte) :
    readByte i s = .ok b ↔ i < 8 * s.cfg.n ∧ Memory.read s.buf i = some b := by
  unfold readByte
  split
  · rename_i h
    cases hm : Memory.read s.buf i <;> simp [h]
  · simp [*]

/-! ### Row writes -/

/-- The pair of every buffer-writing operation: the byte written, the same byte sent. -/
theorem putRow_next (s : State) (a : Nat) (r : Idx) (v : Byte) (h : valid s a) :
    ∃ t, putRow a r v s = .next t ∧ Sends s t [(a, opDigit r, v)] ∧ t.buf = Memory.write s.buf (bufIndex a r) v := by
  unfold putRow
  rw [writeByte_next _ _ _ (bufIndex_lt r h)]
  obtain ⟨e, c, p, q, k⟩ := emit_sends (setByte (bufIndex a r) v s) a (opDigit r) v h
  exact ⟨_, by simp only [andThen_next, send]; exact if_pos h, ⟨e, c, by simp, q, k⟩, rfl⟩

theorem writeRow_valid (s : State) (a : Nat) (r : Idx) (v : Byte) (h : valid s a) :
    writeRow a r v s = putRow a r v s := by simp [writeRow, h]

theorem writeRow_invalid (s : State) (a : Nat) (r : Idx) (v : Byte) (h : ¬valid s a) :
    writeRow a r v s = .next s := by simp [writeRow, h]

theorem writeDigit_valid (s : State) (a : Nat) (r : Idx) (v : Byte) (dp : Bool) (h : valid s a) :
    writeDigit a r v dp s = putRow a r (digitByte s.cfg v dp) s := by simp [writeDigit, h]

theorem writeDigit_invalid (s : State) (a : Nat) (r : Idx) (v : Byte) (dp : Bool) (h : ¬valid s a) :
    writeDigit a r v dp s = .next s := by simp [writeDigit, h]

theorem writeLed_valid (s : State) (a : Nat) (r col : Idx) (state : Bool) (b : Byte) (h : valid s a)
    (hb : Memory.read s.buf (bufIndex a r) = some b) :
    writeLed a r col state s = putRow a r (ledByte b col state) s := by
  simp [writeLed, h, (readByte_ok s _ b).2 ⟨bufIndex_lt r h, hb⟩]

theorem writeLed_invalid (s : State) (a : Nat) (r col : Idx) (state : Bool) (h : ¬valid s a) :
    writeLed a r col state s = .next s := by simp [writeLed, h]

theorem setPower_valid (s : State) (a : Nat) (f : Bool) (h : valid s a) :
    ∃ t, setPower a f s = .next t ∧ Sends s t [(a, opShutdown, powerData f)] ∧ t.buf = s.buf := by
  simp only [setPower, h, if_true]
  exact send_next s a _ _ h

theorem setPower_invalid (s : State) (a : Nat) (f : Bool) (h : ¬valid s a) : setPower a f s = .next s := by
  simp [setPower, h]

/-! ### Loops over rows -/

@[simp] theorem eachRow_nil (f : Idx → State → Result) (s : State) : eachRow f [] s = .next s := rfl

@[simp] theorem eachRow_cons (f : Idx → State → Result) (r : Idx) (rs : List Idx) (s : State) :
    eachRow f (r :: rs) s = andThen (f r s) (eachRow f rs) := rfl

/-- A loop of row writes to device `a`, each row at most once, where the byte for a row may depend on the byte it held: it
sends the listed rows in order, and each listed row then holds the byte sent. -/
theorem eachRow_writes (a : Nat) (f : Idx → State → Result) (g : Idx → Option Byte → Byte) (s : State) (rs : List Idx)
    (ha : valid s a) (hrs : rs.Nodup)
    (hf : ∀ r ∈ rs, ∀ t, valid t a → Memory.read t.buf (bufIndex a r) = Memory.read s.buf (bufIndex a r) →
      f r t = putRow a r (g r (Memory.read s.buf (bufIndex a r))) t) :
    ∃ t, eachRow f rs s = .next t ∧
      Sends s t (rs.map fun r => (a, opDigit r, g r (Memory.read s.buf (bufIndex a r)))) ∧
      (∀ r ∈ rs, Memory.read t.buf (bufIndex a r) = some (g r (Memory.read s.buf (bufIndex a r)))) ∧
      (∀ i, (∀ r ∈ rs, i ≠ bufIndex a r) → Memory.read t.buf i = Memory.read s.buf i) ∧
      (Memory.wf s.buf = true → Memory.wf t.buf = true) := by
  induction rs generalizing s with
  | nil => exact ⟨s, rfl, Sends.refl s, by simp, by simp, id⟩
  | cons r rs ih =>
    obtain ⟨hr, hrs⟩ := List.nodup_cons.1 hrs
    obtain ⟨u, hu, su, bu⟩ := putRow_next s a r (g r (Memory.read s.buf (bufIndex a r))) ha
    have hsame : ∀ q ∈ rs, Memory.read u.buf (bufIndex a q) = Memory.read s.buf (bufIndex a q) := by
      intro q hq
      rw [bu, Memory.read_write_ne]
      intro e
      exact hr ((bufIndex_inj e).2 ▸ hq)
    have hcfg : u.cfg = s.cfg := su.2.2.2.2.1
    obtain ⟨t, ht, st, wt, kt, ct⟩ := ih u (by simpa [valid, hcfg] using ha) hrs (by
      intro q hq v hv e
      rw [hsame q hq]
      exact hf q (List.mem_cons_of_mem _ hq) v hv (e.trans (hsame q hq)))
    have hmap : (rs.map fun q => (a, opDigit q, g q (Memory.read u.buf (bufIndex a q)))) =
        rs.map fun q => (a, opDigit q, g q (Memory.read s.buf (bufIndex a q))) :=
      List.map_congr_left fun q hq => by rw [hsame q hq]
    rw [hmap] at st
    refine ⟨t, ?_, ?_, ?_, ?_, ?_⟩
    · rw [eachRow_cons, hf r (List.mem_cons_self ..) s ha rfl, hu, andThen_next, ht]
    · exact su.trans st
    · intro q hq
      rcases List.mem_cons.1 hq with rfl | hq
      · rw [kt _ (fun _ hq' e => hr (by rwa [(bufIndex_inj e).2])), bu, Memory.read_write_same]
      · rw [wt q hq, hsame q hq]
    · intro i hi
      rw [kt i (fun q hq => hi q (List.mem_cons_of_mem _ hq)), bu,
        Memory.read_write_ne _ _ (hi r (List.mem_cons_self ..))]
    · intro hw
      exact ct (bu ▸ Memory.wf_write _ _ _ hw)

theorem rows_nodup : rows.Nodup := by decide

@[simp] theorem mem_rows (r : Idx) : r ∈ rows := by revert r; decide

/-- The clearing loop: eight DIGIT commands with data 0 in ascending order, and the eight bytes read 0. -/
theorem clearRows_next (s : State) (a : Nat) (ha : valid s a) :
    ∃ t, clearRows a s = .next t ∧ Sends s t (rows.map fun r => (a, opDigit r, 0x00)) ∧
      (∀ r, Memory.read t.buf (bufIndex a r) = some 0x00) ∧
      (∀ i, (∀ r, i ≠ bufIndex a r) → Memory.read t.buf i = Memory.read s.buf i) ∧
      (Memory.wf s.buf = true → Memory.wf t.buf = true) := by
  obtain ⟨t, h1, h2, h3, h4, h5⟩ :=
    eachRow_writes a (fun r => putRow a r 0x00) (fun _ _ => 0x00) s rows ha rows_nodup (fun _ _ _ _ _ => rfl)
  exact ⟨t, h1, h2, fun r => h3 r (mem_rows r), fun i hi => h4 i fun r _ => hi r, h5⟩

/-- A loop of SETLEDs over rows one of which is unwritten stops with UNWRITTEN_READ (R25). -/
theorem eachRow_unwritten (a : Nat) (col : Idx) (bit : Idx → Bool) (rs : List Idx) (s : State) (ha : valid s a) (r : Idx)
    (hr : r ∈ rs) (hn : Memory.read s.buf (bufIndex a r) = none) :
    eachRow (fun row => writeLed a row col (bit row)) rs s = .fault .unwrittenRead := by
  induction rs generalizing s with
  | nil => cases hr
  | cons q qs ih =>
    rw [eachRow_cons]
    cases hq : Memory.read s.buf (bufIndex a q) with
    | none => simp [writeLed, ha, readByte, bufIndex_lt q ha, hq, andThen]
    | some b =>
      have hne : r ≠ q := by rintro rfl; rw [hn] at hq; cases hq
      obtain ⟨t, e, hs, hb⟩ := putRow_next s a q (ledByte b col (bit q)) ha
      rw [writeLed_valid s a q col _ b ha hq, e, andThen_next]
      refine ih t (by simpa [valid, hs.2.2.2.2.1] using ha) ((List.mem_cons.1 hr).resolve_left hne) ?_
      rw [hb, Memory.read_write_ne _ _ fun h => hne (bufIndex_inj h).2, hn]

/-! ### The chips -/

theorem latchReg_chip (s : State) (a : Nat) (r : ChipReg) (d : Byte) (b : Nat) :
    (latchReg a r d s).chips[b]? = (s.chips[b]?).map (if a = b then Chip.put r d else id) := by
  rw [latchReg_chips, List.getElem?_modify]
  by_cases h : a = b <;> simp [h]

/-! ### The runner -/

theorem deferredRowWrite_serves (k : Nat) (s : State) (e : Entry) (rest : Batch) (h : s.dq[k]? = some (e :: rest)) :
    deferredRowWrite k s = writeRow e.a.toNat e.r e.v { s with dq := dqAfter s.dq k rest } := by
  simp [deferredRowWrite, h]

theorem deferredRowWrite_idle (k : Nat) (s : State) (h : s.dq[k]? = none) : deferredRowWrite k s = .next s := by
  simp [deferredRowWrite, h]

end Sys2Proof.Machine
end

