-- ==== Sys2Proof/Laws/PerInstr.lean ====
section
/-! SUPPORT. Laws/PerInstr.lean: the statements made per instruction. -/

namespace Sys2Proof.Laws.Expansion

/-- Every instruction stands for one machine instruction: its expansion is well formed and has the same code, so a
pseudo-instruction has no word of its own (R91). -/
def Statement (i : Instr) : Prop := i.expand.wellFormed = true ∧ encode i.expand = encode i

theorem shutdown (a : Dev) (s : Bool) : Statement (.shutdown a s) := ⟨rfl, rfl⟩
theorem setScanLimit (a : Dev) (limit : Byte) : Statement (.setScanLimit a limit) := ⟨rfl, rfl⟩
theorem setBrightness (a : Dev) (v : Byte) : Statement (.setBrightness a v) := ⟨rfl, rfl⟩
theorem clear (a : Dev) : Statement (.clear a) := ⟨rfl, rfl⟩
theorem setLed (a : Dev) (row : Idx) (col : Idx) (state : Bool) : Statement (.setLed a row col state) := ⟨rfl, rfl⟩
theorem setRow (a : Dev) (row : Idx) (v : Byte) : Statement (.setRow a row v) := ⟨rfl, rfl⟩
theorem setColumn (a : Dev) (col : Idx) (v : Byte) : Statement (.setColumn a col v) := ⟨rfl, rfl⟩
theorem setDigit (a : Dev) (digit : Idx) (v : Byte) (dp : Bool) : Statement (.setDigit a digit v dp) := ⟨rfl, rfl⟩
theorem setChar (a : Dev) (digit : Idx) (v : Byte) (dp : Bool) : Statement (.setChar a digit v dp) := ⟨rfl, rfl⟩
theorem on (a : Dev) : Statement (.on a) := ⟨rfl, rfl⟩
theorem off (a : Dev) : Statement (.off a) := ⟨rfl, rfl⟩
theorem noop (a : Dev) (data : Byte) : Statement (.noop a data) := ⟨rfl, rfl⟩
theorem digit0 (a : Dev) (data : Byte) : Statement (.digit0 a data) := ⟨rfl, rfl⟩
theorem digit1 (a : Dev) (data : Byte) : Statement (.digit1 a data) := ⟨rfl, rfl⟩
theorem digit2 (a : Dev) (data : Byte) : Statement (.digit2 a data) := ⟨rfl, rfl⟩
theorem digit3 (a : Dev) (data : Byte) : Statement (.digit3 a data) := ⟨rfl, rfl⟩
theorem digit4 (a : Dev) (data : Byte) : Statement (.digit4 a data) := ⟨rfl, rfl⟩
theorem digit5 (a : Dev) (data : Byte) : Statement (.digit5 a data) := ⟨rfl, rfl⟩
theorem digit6 (a : Dev) (data : Byte) : Statement (.digit6 a data) := ⟨rfl, rfl⟩
theorem digit7 (a : Dev) (data : Byte) : Statement (.digit7 a data) := ⟨rfl, rfl⟩
theorem decodeMode (a : Dev) (data : Byte) : Statement (.decodeMode a data) := ⟨rfl, rfl⟩
theorem intensity (a : Dev) (data : Byte) : Statement (.intensity a data) := ⟨rfl, rfl⟩
theorem scanLimit (a : Dev) (data : Byte) : Statement (.scanLimit a data) := ⟨rfl, rfl⟩
theorem shutdownReg (a : Dev) (data : Byte) : Statement (.shutdownReg a data) := ⟨rfl, rfl⟩
theorem displayTest (a : Dev) (data : Byte) : Statement (.displayTest a data) := ⟨rfl, rfl⟩

end Sys2Proof.Laws.Expansion
end

