-- ==== Sys2Proof/Laws/Step.lean ====
section
/-! SUPPORT. Laws/Step.lean: what a meaning and a step can do, said once. `Acts ops s t` says that `t` is reached from `s` by
sends of the control opcodes `ops` and by row writes (each a buffer byte and the frame that carries it), to valid devices;
an invariant is proved by one induction over it. `exec_cases` and `step_cases` are the inversion lemmas. -/

namespace Sys2Proof.Machine

/-- Sends and row writes to valid devices, one after the other. -/
inductive Acts (ops : List Byte) (s : State) : State → Prop
  | refl : Acts ops s s
  | send {t : State} (a : Nat) (op d : Byte) : Acts ops s t → a < t.cfg.n → op ∈ ops →
      Acts ops s (emit (frameBytes t.cfg.n a op d) t)
  | row {t : State} (a : Nat) (r : Idx) (v : Byte) : Acts ops s t → a < t.cfg.n →
      Acts ops s (emit (frameBytes t.cfg.n a (opDigit r) v) (setByte (bufIndex a r) v t))

/-- The control opcodes host commands send (R93). -/
def hostOps : List Byte := [opScanLimit, opIntensity, opShutdown]

/-- The control opcodes the initialization sequence sends (R93, R232). -/
def initOps : List Byte := [opDisplayTest, opScanLimit, opDecodeMode, opShutdown]

theorem Acts.trans {ops : List Byte} {s t u : State} (h : Acts ops s t) (h' : Acts ops t u) : Acts ops s u := by
  induction h' with
  | refl => exact h
  | send a op d _ ha ho ih => exact .send a op d ih ha ho
  | row a r v _ ha ih => exact .row a r v ih ha

/-- What sends and row writes leave alone. -/
theorem Acts.keeps {ops : List Byte} {s t : State} (h : Acts ops s t) :
    KeepsRest s t ∧ t.chips.length = s.chips.length := by
  induction h with
  | refl => exact ⟨⟨rfl, rfl, rfl, rfl, rfl⟩, rfl⟩
  | send a op d _ _ _ ih => exact ⟨ih.1, by simpa using ih.2⟩
  | row a r v _ _ ih => exact ⟨ih.1, by simpa using ih.2⟩

theorem Acts.cfg {ops : List Byte} {s t : State} (h : Acts ops s t) : t.cfg = s.cfg := h.keeps.1.1

theorem send_acts {ops : List Byte} {s t : State} {a : Nat} {op d : Byte} (ho : op ∈ ops) (h : send a op d s = .next t) :
    Acts ops s t := by
  unfold Sys2Proof.Machine.send at h
  split at h
  next ha => cases h; exact .send a op d .refl ha ho
  next => cases h

theorem putRow_acts {ops : List Byte} {s t : State} {a : Nat} {r : Idx} {v : Byte} (ha : valid s a)
    (h : putRow a r v s = .next t) : Acts ops s t := by
  unfold putRow at h
  rw [writeByte_next _ _ _ (bufIndex_lt r ha), andThen_next] at h
  unfold Sys2Proof.Machine.send at h
  rw [if_pos (show valid (setByte (bufIndex a r) v s) a from ha)] at h
  cases h
  exact .row a r v .refl ha

theorem writeRow_acts {ops : List Byte} {s t : State} {a : Nat} {r : Idx} {v : Byte}
    (h : writeRow a r v s = .next t) : Acts ops s t := by
  unfold writeRow at h
  split at h
  next ha => exact putRow_acts ha h
  next => cases h; exact .refl

theorem writeDigit_acts {ops : List Byte} {s t : State} {a : Nat} {r : Idx} {v : Byte} {dp : Bool}
    (h : writeDigit a r v dp s = .next t) : Acts ops s t := by
  unfold writeDigit at h
  split at h
  next ha => exact putRow_acts ha h
  next => cases h; exact .refl

theorem writeLed_acts {ops : List Byte} {s t : State} {a : Nat} {r col : Idx} {state : Bool}
    (h : writeLed a r col state s = .next t) : Acts ops s t := by
  unfold writeLed at h
  split at h
  next ha =>
    split at h
    next => exact putRow_acts ha h
    next => cases h
  next => cases h; exact .refl

theorem setPower_acts {ops : List Byte} {s t : State} {a : Nat} {f : Bool} (ho : opShutdown ∈ ops)
    (h : setPower a f s = .next t) : Acts ops s t := by
  unfold setPower at h
  split at h
  next => exact send_acts ho h
  next => cases h; exact .refl

/-- A loop over rows acts when its body does. -/
theorem eachRow_acts {ops : List Byte} {f : Idx → State → Result} (rs : List Idx) {s t : State}
    (hf : ∀ r u w, u.cfg = s.cfg → f r u = .next w → Acts ops u w) (h : eachRow f rs s = .next t) : Acts ops s t := by
  suffices ∀ u, u.cfg = s.cfg → eachRow f rs u = .next t → Acts ops u t from this s rfl h
  clear h
  induction rs with
  | nil => intro u _ h; cases h; exact .refl
  | cons r rs ih =>
    intro u hu h
    rw [eachRow_cons, andThen_eq_next] at h
    obtain ⟨w, hw, h⟩ := h
    have := hf r u w hu hw
    exact this.trans (ih w (this.cfg.trans hu) h)

theorem clearRows_acts {ops : List Byte} {s t : State} {a : Nat} (ha : valid s a) (h : clearRows a s = .next t) :
    Acts ops s t :=
  eachRow_acts rows (fun _ u _ hu hw => putRow_acts (show valid u a by simpa [valid, hu] using ha) hw) h

/-- What an instruction that answers a next state has done: sends and row writes (every host operation), one deferred batch of a
glyph (SETCHAR in matrix mode), or one register of one chip (a wire command). -/
theorem exec_cases (i : Instr) (s t : State) (h : exec i s = .next t) :
    Acts hostOps s t ∨
      (∃ a digit v dp g, i = .setChar a digit v dp ∧ s.cfg.isMatrix = true ∧ valid s a.toNat ∧ glyph s.cfg v = some g ∧
        t = defer (glyphBatch a g) s) ∨
      (∃ r d, t = latchReg i.device.toNat r d s ∧ ∃ w, encode i = .wire i.device w) := by
  cases i with
  | shutdown a f => exact .inl (setPower_acts (by decide) h)
  | on a => exact .inl (setPower_acts (by decide) h)
  | off a => exact .inl (setPower_acts (by decide) h)
  | setScanLimit a v =>
    simp only [exec, execSetScanLimit] at h
    split at h
    next => exact .inl (send_acts (by decide) h)
    next => cases h; exact .inl .refl
  | setBrightness a v =>
    simp only [exec, execSetBrightness] at h
    split at h
    next => exact .inl (send_acts (by decide) h)
    next => cases h; exact .inl .refl
  | clear a =>
    simp only [exec, execClear] at h
    split at h
    next ha => exact .inl (clearRows_acts ha h)
    next =>
      split at h
      next => cases h; exact .inl .refl
      next => cases h
  | setLed a row col state => exact .inl (writeLed_acts h)
  | setRow a row v => exact .inl (writeRow_acts h)
  | setColumn a col v =>
    simp only [exec, execSetColumn] at h
    split at h
    next => exact .inl (eachRow_acts rows (fun _ _ _ _ hw => writeLed_acts hw) h)
    next => cases h; exact .inl .refl
  | setDigit a digit v dp => exact .inl (writeDigit_acts h)
  | setChar a digit v dp =>
    simp only [exec, execSetChar] at h
    split at h
    next ha =>
      split at h
      next hm =>
        split at h
        next g hg => cases h; exact .inr (.inl ⟨a, digit, v, dp, g, rfl, hm, ha, hg, rfl⟩)
        next => cases h; exact .inl .refl
      next => exact .inl (writeDigit_acts h)
    next => cases h; exact .inl .refl
  | noop a d => cases h; exact .inl .refl
  | digit0 a d => cases h; exact .inr (.inr ⟨_, _, rfl, _, rfl⟩)
  | digit1 a d => cases h; exact .inr (.inr ⟨_, _, rfl, _, rfl⟩)
  | digit2 a d => cases h; exact .inr (.inr ⟨_, _, rfl, _, rfl⟩)
  | digit3 a d => cases h; exact .inr (.inr ⟨_, _, rfl, _, rfl⟩)
  | digit4 a d => cases h; exact .inr (.inr ⟨_, _, rfl, _, rfl⟩)
  | digit5 a d => cases h; exact .inr (.inr ⟨_, _, rfl, _, rfl⟩)
  | digit6 a d => cases h; exact .inr (.inr ⟨_, _, rfl, _, rfl⟩)
  | digit7 a d => cases h; exact .inr (.inr ⟨_, _, rfl, _, rfl⟩)
  | decodeMode a d => cases h; exact .inr (.inr ⟨_, _, rfl, _, rfl⟩)
  | intensity a d => cases h; exact .inr (.inr ⟨_, _, rfl, _, rfl⟩)
  | scanLimit a d => cases h; exact .inr (.inr ⟨_, _, rfl, _, rfl⟩)
  | shutdownReg a d => cases h; exact .inr (.inr ⟨_, _, rfl, _, rfl⟩)
  | displayTest a d => cases h; exact .inr (.inr ⟨_, _, rfl, _, rfl⟩)

/-! ### The initialization sequence -/

/-- The initialization of one valid device answers a next state. -/
theorem initDevice_next (s : State) (a : Nat) (ha : valid s a) :
    ∃ t, initDevice a s = .next t ∧ Sends s t (initCommands a) ∧
      (∀ r, Memory.read t.buf (bufIndex a r) = some 0x00) ∧
      (∀ i, (∀ r, i ≠ bufIndex a r) → Memory.read t.buf i = Memory.read s.buf i) ∧ Acts initOps s t := by
  have valid_of : ∀ {u : State} {xs : List Sent}, Sends s u xs → valid u a := fun h => by
    simpa [valid, h.2.2.2.2.1] using ha
  obtain ⟨s1, e1, h1, b1⟩ := send_next s a opDisplayTest 0x00 ha
  obtain ⟨s2, e2, h2, b2⟩ := send_next s1 a opScanLimit 0x07 (valid_of h1)
  have h12 := h1.trans h2
  obtain ⟨s3, e3, h3, b3⟩ := send_next s2 a opDecodeMode 0x00 (valid_of h12)
  have h13 := h12.trans h3
  obtain ⟨s4, e4, h4, z4, k4, -⟩ := clearRows_next s3 a (valid_of h13)
  have h14 := h13.trans h4
  obtain ⟨s5, e5, h5, b5⟩ := send_next s4 a opShutdown 0x00 (valid_of h14)
  have a1 := (send_acts (ops := initOps) (by decide) e1).trans
    ((send_acts (by decide) e2).trans ((send_acts (by decide) e3).trans
      ((clearRows_acts (valid_of h13) e4).trans (send_acts (by decide) e5))))
  refine ⟨s5, by simp only [initDevice, e1, e2, e3, e4, e5, andThen_next], h14.trans h5, ?_, ?_, a1⟩
  · intro r; rw [b5, z4 r]
  · intro i hi; rw [b5, k4 i hi, b3, b2, b1]

/-- The initialization of valid devices, each listed once, answers a next state. -/
theorem initDevices_next (as : List Nat) (s : State) (ha : ∀ a ∈ as, valid s a) :
    ∃ t, initDevices as s = .next t ∧ Sends s t (as.flatMap initCommands) ∧
      (∀ a ∈ as, ∀ r, Memory.read t.buf (bufIndex a r) = some 0x00) ∧
      (∀ i, (∀ a ∈ as, ∀ r, i ≠ bufIndex a r) → Memory.read t.buf i = Memory.read s.buf i) ∧ Acts initOps s t := by
  induction as generalizing s with
  | nil => exact ⟨s, rfl, Sends.refl s, by simp, by simp, .refl⟩
  | cons a as ih =>
    obtain ⟨u, e, h, z, k, c⟩ := initDevice_next s a (ha a (List.mem_cons_self ..))
    obtain ⟨t, e', h', z', k', c'⟩ := ih u fun b hb => by
      simpa [valid, h.2.2.2.2.1] using ha b (List.mem_cons_of_mem _ hb)
    refine ⟨t, by simp [initDevices, e, e'], h.trans h', ?_, ?_, c.trans c'⟩
    · intro b hb r
      by_cases hin : b ∈ as
      · exact z' b hin r
      · rcases List.mem_cons.1 hb with rfl | hb
        · rw [k' _ fun d hd q hq => hin (by rwa [(bufIndex_inj hq).1]), z r]
        · exact absurd hb hin
    · intro i hi
      rw [k' i fun b hb => hi b (List.mem_cons_of_mem _ hb), k i (hi a (List.mem_cons_self ..))]

/-- The initialization sequence always answers a next state (R232). -/
theorem initSequence_next (s : State) :
    ∃ u, initSequence s = .next { u with initDone := true } ∧ Sends s u ((List.range s.cfg.n).flatMap initCommands) ∧
      (∀ a, a < s.cfg.n → ∀ r, Memory.read u.buf (bufIndex a r) = some 0x00) ∧ Acts initOps s u := by
  obtain ⟨u, e, h, z, -, c⟩ := initDevices_next (List.range s.cfg.n) s fun a ha => List.mem_range.1 ha
  exact ⟨u, by simp [initSequence, e], h, fun a ha r => z a (List.mem_range.2 ha) r, c⟩

/-! ### The step -/

/-- `t` is `s` with some inputs used up: at most one host word, at most one turn, and the first entry of at most one batch. -/
def UsedUp (s t : State) (dq : List Batch) : Prop :=
  ∃ ws ts, t = { s with commands := ws, turns := ts, dq := dq } ∧
    (ws = s.commands ∨ ∃ w, s.commands = w :: ws) ∧ (ts = s.turns ∨ ∃ x, s.turns = x :: ts)

/-- What a step that answers a next state has done. -/
inductive StepCase (s t : State) : Prop
  /-- The reset signal. -/
  | reset (ts : List Turn) (hturn : s.turns = .reset :: ts) (ht : t = reboot { s with turns := ts })
  /-- The initialization sequence. -/
  | init (hinit : s.initDone = false) (ht : initSequence s = .next t)
  /-- An instruction of a host word or a wire word, or nothing. -/
  | instr (u : State) (hinit : s.initDone = true) (hu : UsedUp s u s.dq) (ht : t = u ∨ ∃ i, exec i u = .next t ∧
      ((∃ a w, i.device = a ∧ encode i = .wire a w) → ∃ a w ts, s.turns = .wire a w :: ts))
  /-- A deferred row write. -/
  | runner (u : State) (k : Nat) (e : Entry) (rest : Batch) (hinit : s.initDone = true) (hk : s.dq[k]? = some (e :: rest))
      (hu : UsedUp s u (dqAfter s.dq k rest)) (ht : writeRow e.a.toNat e.r e.v u = .next t)

/-- A host word never decodes to a wire command. -/
theorem decodeHost_not_wire (w : HostWord) (i : Instr) (h : decode (.host w) = .ok i) (a : Dev) (x : WireWord) :
    encode i ≠ .wire a x := by
  simp only [decode, decodeHost] at h
  split at h <;> (try simp only [ifZero] at h) <;> (try split at h) <;> simp at h <;> subst h <;> simp [encode]

theorem acceptCommand_cases (s u t : State) (hi : s.initDone = true) (hu : UsedUp s u s.dq) (hc : u.commands = s.commands)
    (h : acceptCommand u = .next t) : StepCase s t := by
  obtain ⟨ws, ts, rfl, -, hts⟩ := hu
  unfold acceptCommand at h
  split at h
  next => cases h; exact .instr _ hi ⟨ws, ts, rfl, .inl hc, hts⟩ (.inl rfl)
  next w vs hw =>
    have hsc : s.commands = w :: vs := hc ▸ hw
    unfold runCode at h
    split at h
    next i hd =>
      exact .instr _ hi ⟨vs, ts, rfl, .inr ⟨w, hsc⟩, hts⟩
        (.inr ⟨i, h, fun ⟨a, x, _, hx⟩ => absurd hx (decodeHost_not_wire w i hd a x)⟩)
    next => cases h; exact .instr _ hi ⟨vs, ts, rfl, .inr ⟨w, hsc⟩, hts⟩ (.inl rfl)

theorem deferredRowWrite_cases (k : Nat) (s u t : State) (hi : s.initDone = true) (hu : UsedUp s u s.dq)
    (h : deferredRowWrite k u = .next t) : StepCase s t := by
  obtain ⟨ws, ts, rfl, hws, hts⟩ := hu
  unfold deferredRowWrite at h
  split at h
  next e rest hk => exact .runner _ k e rest hi hk ⟨ws, ts, rfl, hws, hts⟩ h
  next => cases h; exact .instr _ hi ⟨ws, ts, rfl, hws, hts⟩ (.inl rfl)
  next => cases h; exact .instr _ hi ⟨ws, ts, rfl, hws, hts⟩ (.inl rfl)

/-- The inversion lemma of the step: a step that answers a next state ran on a legal configuration and did one of the four
things of `StepCase`. -/
theorem step_cases (s t : State) (h : step s = .next t) : s.cfg.legal = true ∧ StepCase s t := by
  unfold step takeTurn at h
  split at h
  next hl =>
    refine ⟨hl, ?_⟩
    split at h
    next ts ht => cases h; exact .reset ts ht rfl
    next hi _ => exact .init hi h
    next ts hi ht => exact acceptCommand_cases s _ t hi ⟨_, ts, rfl, .inl rfl, .inr ⟨_, ht⟩⟩ rfl h
    next k ts hi ht => exact deferredRowWrite_cases k s _ t hi ⟨_, ts, rfl, .inl rfl, .inr ⟨_, ht⟩⟩ h
    next a w ts hi ht =>
      unfold runCode at h
      split at h
      next i hd => exact .instr _ hi ⟨_, ts, rfl, .inl rfl, .inr ⟨_, ht⟩⟩ (.inr ⟨i, h, fun _ => ⟨a, w, ts, ht⟩⟩)
      next => cases h; exact .instr _ hi ⟨_, ts, rfl, .inl rfl, .inr ⟨_, ht⟩⟩ (.inl rfl)
    next hi ht =>
      unfold defaultTurn at h
      split at h
      next => exact deferredRowWrite_cases 0 s s t hi ⟨_, _, rfl, .inl rfl, .inl rfl⟩ h
      next => exact acceptCommand_cases s s t hi ⟨_, _, rfl, .inl rfl, .inl rfl⟩ rfl h
  next => cases h

end Sys2Proof.Machine
end

