-- ==== Sys2Proof/Laws/Queue.lean ====
section
/-! SUPPORT. Laws/Queue.lean: what a step does to DQ, said once. `step_dq` is the inversion lemma; the lemmas on `dqAfter` say
that one entry leaves and every other stays. -/

namespace Sys2Proof.Machine

theorem dq_split {dq : List Batch} {k : Nat} {e : Entry} {rest : Batch} (hk : dq[k]? = some (e :: rest)) :
    dq = dq.take k ++ (e :: rest) :: dq.drop (k + 1) ∧ k < dq.length := by
  obtain ⟨h, hget⟩ := List.getElem?_eq_some_iff.1 hk
  exact ⟨by rw [← hget]; simp, h⟩

/-- `dqAfter` replaces batch `k` by its tail, if there is one left. -/
theorem dqAfter_eq {dq : List Batch} {k : Nat} {e : Entry} {rest : Batch} (hk : dq[k]? = some (e :: rest)) :
    dqAfter dq k rest = dq.take k ++ (if rest = [] then [] else [rest]) ++ dq.drop (k + 1) := by
  obtain ⟨-, h⟩ := dq_split hk
  unfold dqAfter
  split
  · rw [List.eraseIdx_eq_take_drop_succ]; simp
  · rw [List.set_eq_take_append_cons_drop, if_pos h]; simp

/-- The waiting entries lose exactly the one served. -/
theorem flatten_dqAfter {dq : List Batch} {k : Nat} {e : Entry} {rest : Batch} (hk : dq[k]? = some (e :: rest)) :
    dq.flatten.Perm (e :: (dqAfter dq k rest).flatten) := by
  rw [dqAfter_eq hk]
  conv_lhs => rw [(dq_split hk).1]
  have htail : (if rest = [] then ([] : List Batch) else [rest]).flatten = rest := by split <;> simp_all
  simp only [List.flatten_append, List.flatten_cons, htail, List.append_assoc, List.cons_append]
  exact List.perm_middle

/-- Every batch stays, but the one served, whose tail stays unless it is empty. -/
theorem mem_dqAfter {dq : List Batch} {k : Nat} {e : Entry} {rest : Batch} (hk : dq[k]? = some (e :: rest)) (b : Batch)
    (hb : b ∈ dq) : b ∈ dqAfter dq k rest ∨ b = e :: rest ∧ (rest = [] ∨ rest ∈ dqAfter dq k rest) := by
  rw [dqAfter_eq hk]
  rw [(dq_split hk).1] at hb
  simp only [List.mem_append, List.mem_cons] at hb ⊢
  rcases hb with h | h | h
  · exact .inl (.inl (.inl h))
  · exact .inr ⟨h, by by_cases hr : rest = [] <;> simp [hr]⟩
  · exact .inl (.inr h)

/-- What a step does to DQ: the runner takes the entry `servedNow` names, or nothing leaves and at most one batch is added. -/
def DqStep (s t : State) : Prop :=
  match servedNow s with
  | some e => ∃ k rest, s.dq[k]? = some (e :: rest) ∧ t.dq = dqAfter s.dq k rest
  | none => t.dq = s.dq ∨ ∃ b, t.dq = s.dq ++ [b]

theorem runCode_dq {c : Code} {s t : State} (h : runCode c s = .next t) :
    (t.dq = s.dq ∨ ∃ b, t.dq = s.dq ++ [b]) ∧ t.turns = s.turns := by
  unfold runCode at h
  split at h
  next i _ =>
    rcases exec_cases i s t h with hA | ⟨_, _, _, _, _, _, _, _, _, rfl⟩ | ⟨_, _, rfl, _⟩
    · exact ⟨.inl hA.keeps.1.2.1, hA.keeps.1.2.2.2.2⟩
    · exact ⟨.inr ⟨_, rfl⟩, rfl⟩
    · exact ⟨.inl rfl, rfl⟩
  next => cases h; exact ⟨.inl rfl, rfl⟩

theorem acceptCommand_dq {s t : State} (h : acceptCommand s = .next t) :
    (t.dq = s.dq ∨ ∃ b, t.dq = s.dq ++ [b]) ∧ t.turns = s.turns := by
  unfold acceptCommand at h
  split at h
  next => cases h; exact ⟨.inl rfl, rfl⟩
  next ws _ => exact runCode_dq (s := { s with commands := ws }) h

theorem dqStep_of_runner {s u t : State} {k : Nat} (hs : servedBatch s = some k) (hu : u.dq = s.dq)
    (h : deferredRowWrite k u = .next t) : DqStep s t ∧ t.turns = u.turns := by
  unfold DqStep servedNow
  rw [hs, Option.bind_some, ← hu]
  unfold deferredRowWrite at h
  split at h
  next e rest hk =>
    have hA := (writeRow_acts (ops := hostOps) h).keeps.1
    rw [hk]
    exact ⟨⟨k, rest, hk, hA.2.1⟩, hA.2.2.2.2⟩
  next hk => cases h; rw [hk]; exact ⟨.inl rfl, rfl⟩
  next hk => cases h; rw [hk]; exact ⟨.inl rfl, rfl⟩

theorem dqStep_of_none {s t : State} (hs : servedBatch s = none) (h : t.dq = s.dq ∨ ∃ b, t.dq = s.dq ++ [b]) :
    DqStep s t := by
  unfold DqStep servedNow
  rw [hs]
  exact h

/-- Without a reset turn a step does to DQ what `DqStep` says, and lists no reset turn. -/
theorem step_dq {s t : State} (h : step s = .next t) (hr : Turn.reset ∉ s.turns) : DqStep s t ∧ Turn.reset ∉ t.turns := by
  unfold step takeTurn at h
  split at h
  next =>
    split at h
    next ht => rw [ht] at hr; simp at hr
    next hi _ =>
      obtain ⟨u, e, hs, _⟩ := initSequence_next s
      rw [e] at h
      cases h
      obtain ⟨_, hd, _, _, hts⟩ := hs.2.2.2.2
      exact ⟨dqStep_of_none (by simp [servedBatch, hi]) (.inl hd), show Turn.reset ∉ u.turns from hts ▸ hr⟩
    next ts hi ht =>
      obtain ⟨hd, hts⟩ := acceptCommand_dq h
      rw [ht] at hr
      exact ⟨dqStep_of_none (by simp [servedBatch, hi, ht]) hd, by rw [hts]; simpa using hr⟩
    next k ts hi ht =>
      obtain ⟨hd, hts⟩ := dqStep_of_runner (s := s) (u := { s with turns := ts }) (k := k) (by simp [servedBatch, hi, ht]) rfl h
      rw [ht] at hr
      exact ⟨hd, by rw [hts]; simpa using hr⟩
    next a w ts hi ht =>
      obtain ⟨hd, hts⟩ := runCode_dq h
      rw [ht] at hr
      exact ⟨dqStep_of_none (by simp [servedBatch, hi, ht]) hd, by rw [hts]; simpa using hr⟩
    next hi ht =>
      unfold defaultTurn at h
      split at h
      next hc =>
        obtain ⟨hd, hts⟩ := dqStep_of_runner (u := s) (by simp [servedBatch, hi, ht, hc]) rfl h
        exact ⟨hd, hts ▸ hr⟩
      next hc =>
        obtain ⟨hd, hts⟩ := acceptCommand_dq h
        exact ⟨dqStep_of_none (by simp [servedBatch, hi, ht, hc]) hd, hts ▸ hr⟩
  next => cases h

end Sys2Proof.Machine
end

