-- ==== Sys2Proof/Tests/Slice0.lean ====
section
/-! SUPPORT. Tests/Slice0.lean: the model's own tests. Expected values come from spec/95_test_vectors.md, from the examples of the
instruction rules, or by hand from the rule named. -/

namespace Sys2Proof.Tests
open Sys2Proof Sys2Proof.Machine

/-- A small configuration: SEG_FONT is zero but for entry 5, every glyph is the same diagonal. -/
def cfgOf (n : Nat) (isMatrix clearGuard : Bool) : Cfg :=
  { n := n, isMatrix := isMatrix, clearGuard := clearGuard, segFont := (Vector.replicate 128 0x00).set 5 0x5B
    matrixFont := Vector.replicate 94 #v[0x01, 0x02, 0x04, 0x08, 0x10, 0x20, 0x40, 0x80] }

/-- A chip whose registers all hold 0xEE. -/
def oldChip : Chip :=
  { digits := Vector.replicate 8 0xEE, decode := 0xEE, intensity := 0xEE, scanLimit := 0xEE, shutdown := 0xEE, test := 0xEE }

/-- The machine right after reset. -/
def fresh (n : Nat) (isMatrix clearGuard : Bool) : State :=
  State.resetWith (cfgOf n isMatrix clearGuard) (List.replicate n oldChip)

/-- The machine after its initialization step. -/
def booted (n : Nat) (isMatrix clearGuard : Bool) : State := initialized (fresh n isMatrix clearGuard)

/-- The frames an outcome added to those of `s`, each in wire order. -/
def wire (s : State) (r : Result) : List (List Byte) :=
  match r with
  | .next t => (t.frames.drop s.frames.length).map List.reverse
  | .fault _ => []
  | .refused _ => []

/-- A field of the next state. -/
def field {α : Type} (get : State → α) (r : Result) : Option α :=
  match r with
  | .next t => some (get t)
  | .fault _ => none
  | .refused _ => none

/-- The fault of an outcome. -/
def faultOf (r : Result) : Option Fault :=
  match r with
  | .next _ => none
  | .fault f => some f
  | .refused _ => none

/-- Whether an outcome is a next state. -/
def isNext (r : Result) : Bool :=
  match r with
  | .next _ => true
  | .fault _ => false
  | .refused _ => false

theorem next_of_isNext {r : Result} (h : isNext r = true) : ∃ t, r = .next t := by
  cases r with
  | next t => exact ⟨t, rfl⟩
  | fault f => cases h
  | refused q => cases h

/-! ### WellFormed refuses ill-formed terms (one check: a pseudo-instruction is not a machine instruction) -/

theorem test_wellFormed_refuses_on : (Instr.on 0).wellFormed = false := by decide
theorem test_wellFormed_refuses_off : (Instr.off 255).wellFormed = false := by decide
theorem test_wellFormed_accepts_shutdown : (Instr.shutdown 0 false).wellFormed = true := by decide

/-! ### Decoding: a word for every constructor, written out from R80, R84, R86 and R91 -/

/-- Power words (spec L2-2). -/
theorem test_decode_power :
    decode (.host 0x10080000) = .ok (.shutdown 0 true) ∧ decode (.host 0x10100000) = .ok (.shutdown 1 false) ∧
    decode (.host 0x20000009) = .ok (.setScanLimit 0 9) ∧ decode (.host 0x3010000F) = .ok (.setBrightness 1 15) := by decide

/-- ON and OFF words (R91) are words of SHUTDOWN. -/
theorem test_encode_on_off :
    encode (.on 1) = .host 0x10100000 ∧ encode (.off 1) = .host 0x10180000 ∧
    decode (encode (.on 1)) = .ok (.shutdown 1 false) ∧ decode (encode (.off 1)) = .ok (.shutdown 1 true) := by decide

/-- State-mutation words (spec L2-3, L2-6). -/
theorem test_decode_mutation :
    decode (.host 0x40500000) = .ok (.clear 5) ∧ decode (.host 0x50070100) = .ok (.setLed 0 7 1 false) ∧
    decode (.host 0x6FF70001) = .ok (.setRow 255 7 0x01) ∧ decode (.host 0x700200A5) = .ok (.setColumn 0 2 0xA5) ∧
    decode (.host 0x801A00C8) = .ok (.setDigit 1 2 200 true) := by decide

/-- Character words (spec L2-4). -/
theorem test_decode_char :
    decode (.host 0x900900C8) = .ok (.setChar 0 1 200 true) ∧ decode (.host 0x900D0041) = .ok (.setChar 0 5 0x41 true) := by
  decide

/-- The example words of R111 to R118. -/
theorem test_decode_digits :
    decode (.wire 0 0x01FF) = .ok (.digit0 0 0xFF) ∧ decode (.wire 1 0x0281) = .ok (.digit1 1 0x81) ∧
    decode (.wire 0 0x03A5) = .ok (.digit2 0 0xA5) ∧ decode (.wire 0 0x0400) = .ok (.digit3 0 0x00) ∧
    decode (.wire 0 0x0510) = .ok (.digit4 0 0x10) ∧ decode (.wire 0 0x0680) = .ok (.digit5 0 0x80) ∧
    decode (.wire 0 0x0701) = .ok (.digit6 0 0x01) ∧ decode (.wire 255 0x08F0) = .ok (.digit7 255 0xF0) := by decide

/-- The example words of R110 and R119 to R123. -/
theorem test_decode_control :
    decode (.wire 0 0x0000) = .ok (.noop 0 0x00) ∧ decode (.wire 0 0x0900) = .ok (.decodeMode 0 0x00) ∧
    decode (.wire 0 0x0A08) = .ok (.intensity 0 0x08) ∧ decode (.wire 0 0x0B07) = .ok (.scanLimit 0 0x07) ∧
    decode (.wire 0 0x0C01) = .ok (.shutdownReg 0 0x01) ∧ decode (.wire 0 0x0F00) = .ok (.displayTest 0 0x00) := by decide

/-- Reserved words (spec L2-2 10 and 11, L2-3 16 and 17, L2-6 1 and 2, L3-4 4 and 8; R87). -/
theorem test_decode_reserved :
    decode (.host 0x10000001) = .error .nonzeroField ∧ decode (.host 0x20080007) = .error .nonzeroField ∧
    decode (.host 0x60080011) = .error .nonzeroField ∧ decode (.host 0x50000801) = .error .nonzeroField ∧
    decode (.host 0x60000155) = .error .nonzeroField ∧ decode (.host 0x40080000) = .error .nonzeroField ∧
    decode (.host 0x00000000) = .error .reservedOp ∧ decode (.host 0xA0000000) = .error .reservedOp ∧
    decode (.host 0xFFFFFFFF) = .error .reservedOp ∧ decode (.wire 0 0x0D00) = .error .unlistedOpcode ∧
    decode (.wire 0 0x0E00) = .error .unlistedOpcode ∧ decode (.wire 0 0x1000) = .error .unlistedOpcode := by decide

theorem test_decodeTableWord :
    decodeTableWord 32 0x50080300 = some (.setLed 0 0 3 true) ∧ decodeTableWord 16 0x0C01 = some (.shutdownReg 0 1) ∧
    decodeTableWord 32 0xA0000000 = none := by decide

/-! ### The serial link -/

/-- Spec R100: N = 3, SEND(1, 0x03, 0xA5); C1's corrected frame, index 0 first. -/
theorem test_frame_example : frameBytes 3 1 0x03 0xA5 = [0x00, 0x00, 0xA5, 0x03, 0x00, 0x00] := by decide

/-- Spec L2-1 5: N = 1, SEND(0, 0x0C, 0x01): DIN carries 0000 1100 0000 0001 and ends HIGH. -/
theorem test_send_pins :
    sampled Ports.atReset (frameEvents (frameBytes 1 0 0x0C 0x01)) =
      [false, false, false, false, true, true, false, false, false, false, false, false, false, false, false, true] ∧
    field State.ports (send 0 0x0C 0x01 (booted 1 false true)) = some ⟨.high, .low, .high⟩ := by decide

/-- Spec L2-1 4: SEND to address N is FRAME_ADDR. -/
theorem test_send_fault : faultOf (send 2 0x01 0x00 (booted 2 false true)) = some .frameAddr := by decide

/-- Spec L2-1, receiver model: the frame with bytes 0B 03 01 7E. -/
theorem test_latch_two_slots :
    (emit [0x7E, 0x01, 0x03, 0x0B] (fresh 2 false true)).chips[1]?.map Chip.scanLimit = some 0x03 ∧
    (emit [0x7E, 0x01, 0x03, 0x0B] (fresh 2 false true)).chips[0]?.map (Chip.get (.digit 0)) = some 0x7E := by decide

/-! ### Host operations -/

/-- Spec L1-6: on(0) with N = 2. -/
theorem test_on : wire (booted 2 false true) (exec (.on 0) (booted 2 false true)) = [[0x00, 0x00, 0x0C, 0x01]] := by decide

/-- Spec L2-2 3: OFF 1 with N = 2; R130: SHUTDOWN 0, 1 sends data 0. -/
theorem test_off_shutdown :
    wire (booted 2 false true) (exec (.off 1) (booted 2 false true)) = [[0x0C, 0x00, 0x00, 0x00]] ∧
    wire (booted 1 false true) (exec (.shutdown 0 true) (booted 1 false true)) = [[0x0C, 0x00]] := by decide

/-- Spec L2-2 6 and 8: neither operand is clamped. -/
theorem test_pass_through :
    wire (booted 1 false true) (exec (.setScanLimit 0 9) (booted 1 false true)) = [[0x0B, 0x09]] ∧
    wire (booted 1 false true) (exec (.setBrightness 0 200) (booted 1 false true)) = [[0x0A, 0xC8]] := by decide

/-- Spec R150: CLEAR 0; L2-3 14 and 15: CLEAR 1 guarded and unguarded. -/
theorem test_clear :
    wire (booted 1 false true) (exec (.clear 0) (booted 1 false true)) =
      [[1, 0], [2, 0], [3, 0], [4, 0], [5, 0], [6, 0], [7, 0], [8, 0]] ∧
    wire (booted 1 false true) (exec (.clear 1) (booted 1 false true)) = [] ∧
    faultOf (exec (.clear 1) (booted 1 false false)) = some .clearOutOfRange := by decide

/-- Spec R151: buf[2] = 0x01, SETLED 0,2,0,1; L2-3 4: buf[7] = 0xFF, SETLED 0,7,1,0. -/
theorem test_setLed :
    wire (booted 1 false true) (exec (.setLed 0 2 0 true) (setByte 2 0x01 (booted 1 false true))) = [[0x03, 0x81]] ∧
    wire (booted 1 false true) (exec (.setLed 0 7 1 false) (setByte 7 0xFF (booted 1 false true))) = [[0x08, 0xBF]] := by
  decide

/-- Spec R152: N = 2, SETROW 1,3,0xF0 gives buf[11] = 0xF0. -/
theorem test_setRow :
    wire (booted 2 false true) (exec (.setRow 1 3 0xF0) (booted 2 false true)) = [[0x04, 0xF0, 0x00, 0x00]] ∧
    field (fun t => Memory.read t.buf 11) (exec (.setRow 1 3 0xF0) (booted 2 false true)) = some (some 0xF0) := by decide

/-- Spec R153: SETCOLUMN 0,3,0xA0 on a blank buffer. -/
theorem test_setColumn :
    wire (booted 1 false true) (exec (.setColumn 0 3 0xA0) (booted 1 false true)) =
      [[1, 0x10], [2, 0], [3, 0x10], [4, 0], [5, 0], [6, 0], [7, 0], [8, 0]] := by decide

/-- Spec R154 and L2-3 11: the clamp with the point, and a font byte with the point. -/
theorem test_setDigit :
    wire (booted 1 false true) (exec (.setDigit 0 0 200 true) (booted 1 false true)) = [[0x01, 0x80]] ∧
    wire (booted 1 true true) (exec (.setDigit 0 3 5 true) (booted 1 true true)) = [[0x04, 0xDB]] := by decide

/-- Spec L2-4 2 (7-segment) and 3 (no glyph for a space). -/
theorem test_setChar :
    wire (booted 1 false true) (exec (.setChar 0 1 200 true) (booted 1 false true)) = [[0x02, 0x80]] ∧
    field State.dq (exec (.setChar 0 0 0x20 false) (booted 1 true true)) = some [] := by decide

/-- Spec L2-4 6: IDX and F are ignored in matrix mode; R180: nothing is emitted. -/
theorem test_setChar_matrix :
    field State.dq (exec (.setChar 0 5 0x41 true) (booted 1 true true)) =
      some [[⟨0, 0, 1⟩, ⟨0, 1, 2⟩, ⟨0, 2, 4⟩, ⟨0, 3, 8⟩, ⟨0, 4, 16⟩, ⟨0, 5, 32⟩, ⟨0, 6, 64⟩, ⟨0, 7, 128⟩]] ∧
    wire (booted 1 true true) (exec (.setChar 0 5 0x41 true) (booted 1 true true)) = [] := by decide

/-- Spec R186: DQ = [(0,0,0x18),(0,1,0x24)], one runner step. -/
theorem test_runner :
    field State.dq (step { booted 1 true true with dq := [[⟨0, 0, 0x18⟩, ⟨0, 1, 0x24⟩]], turns := [.runner 0] }) =
      some [[⟨0, 1, 0x24⟩]] ∧
    wire (booted 1 true true) (step { booted 1 true true with dq := [[⟨0, 0, 0x18⟩, ⟨0, 1, 0x24⟩]], turns := [.runner 0] }) =
      [[0x01, 0x18]] := by decide

/-! ### Wire commands -/

/-- R113 and R123: each changes its one register of its one device. -/
theorem test_wire_commands :
    field (fun t => t.chips.map (Chip.get (.digit 2))) (exec (.digit2 1 0xA5) (fresh 2 false true)) = some [0xEE, 0xA5] ∧
    field (fun t => t.chips.map Chip.test) (exec (.displayTest 0 0x00) (fresh 2 false true)) = some [0x00, 0xEE] := by decide

/-! ### Initialization and the step -/

/-- Spec L2-5 1: N = 1. -/
theorem test_init :
    wire (fresh 1 false true) (step (fresh 1 false true)) =
      [[0x0F, 0], [0x0B, 7], [0x09, 0], [1, 0], [2, 0], [3, 0], [4, 0], [5, 0], [6, 0], [7, 0], [8, 0], [0x0C, 0]] := by decide

/-- Spec R235: N = 2, frames 12 and 24. -/
theorem test_init_two :
    (wire (fresh 2 false true) (step (fresh 2 false true)))[11]? = some [0x00, 0x00, 0x0C, 0x00] ∧
    (wire (fresh 2 false true) (step (fresh 2 false true)))[23]? = some [0x0C, 0x00, 0x00, 0x00] := by decide

/-- Spec L2-5 4: a word presented before INIT_DONE is held. -/
theorem test_held :
    field State.commands (step { fresh 1 false true with commands := [0x60070055], turns := [.controller] }) =
      some [0x60070055] := by decide

/-- The first instruction after reset: SETROW 0,7,0x55 (L2-3 5) and the wire word 0x01FF (R111). -/
theorem test_withFetchWord :
    field (fun t => Memory.read t.buf 7) (step (State.reset.withFetchWord 32 0x60070055)) = some (some 0x55) ∧
    field (fun t => t.chips[0]?.map (Chip.get (.digit 0))) (step (State.reset.withFetchWord 16 0x01FF)) =
      some (some 0xFF) := by decide

/-! ### Witnesses: the hypotheses of each statement can be met -/

theorem witness_DecodeOfEncode : (Instr.setLed 1 2 3 true).wellFormed = true := by decide
theorem witness_EncodeOfDecode : decode (.host 0x500A0300) = .ok (.setLed 0 2 3 true) := by decide

/-- An initialized machine whose next host word is `w`, with the given turns. -/
def waiting (w : HostWord) (turns : List Turn) : State := { booted 1 true true with commands := [w], turns := turns }

theorem witness_ReservedOp : ReservedWord 0xA0000000 := by
  intro m h
  exact absurd h (by simp [zeroBits])

theorem witness_ReservedField : ReservedWord 0x10000001 := by
  intro m h
  simp [zeroBits] at h
  subst h
  decide

theorem witness_ReservedHostWordIsIgnored :
    (waiting 0xA0000000 [.controller]).cfg.legal = true ∧ (waiting 0xA0000000 [.controller]).initDone = true ∧
    (waiting 0xA0000000 [.controller]).commands = [0xA0000000] ∧ ReservedWord 0xA0000000 ∧ ReservedWord 0x10000001 ∧
    (waiting 0xA0000000 [.controller]).turns = [.controller] :=
  ⟨by decide, by decide, by decide, witness_ReservedOp, witness_ReservedField, by decide⟩

theorem witness_DefaultTurn :
    (waiting 0x40000000 []).initDone = true ∧ (waiting 0x40000000 []).commands ≠ [] ∧ (booted 1 true true).initDone = true ∧
    (booted 1 true true).commands = [] := by decide

theorem witness_StepRunsTheDecodedInstruction :
    ((waiting 0x40000000 [.controller]).cfg.legal = true ∧ (waiting 0x40000000 [.controller]).initDone = true ∧
      (waiting 0x40000000 [.controller]).turns = [.controller] ∧ (waiting 0x40000000 [.controller]).commands = [0x40000000] ∧
      decode (.host 0x40000000) = .ok (.clear 0)) ∧
    ((waiting 0 [.wire 0 0x01FF]).initDone = true ∧ (waiting 0 [.wire 0 0x01FF]).turns = [.wire 0 0x01FF] ∧
      decode (.wire 0 0x01FF) = .ok (.digit0 0 0xFF)) := by decide

/-- Both clauses at the boundary: the last valid address N - 1 and the first invalid address N. -/
theorem witness_valid_and_invalid :
    (1 < (booted 2 false true).cfg.n ∧ ¬2 < (booted 2 false true).cfg.n) ∧
    ((0 : Dev).toNat < (booted 1 true true).cfg.n ∧ ¬(1 : Dev).toNat < (booted 1 true true).cfg.n ∧
      (booted 1 true true).cfg.clearGuard = true ∧ (booted 1 true false).cfg.clearGuard = false) := by decide

theorem witness_FrameIsTheShiftedWord : 255 < 256 ∧ 0 < 1 := by decide

theorem witness_idle_ports : Ports.atReset.clk = .low ∧ [0x7E, 0x01, 0x03, 0x0B].length = 2 * 2 ∧ 1 < 2 := by decide

theorem witness_FrameChangesAtMostOneRegister : ∃ t, send 0 0x01 0x7E (booted 1 true true) = .next t :=
  next_of_isNext (by decide)

theorem witness_FrameRunsTheWireCommand :
    (0 : Dev).toNat < (booted 1 true true).cfg.n ∧ decode (.wire 0 (wireWord 0x01 0x7E)) = .ok (.digit0 0 0x7E) ∧
    decode (.wire 0 (wireWord 0x0D 0x7E)) = .error .unlistedOpcode := by decide

theorem witness_UnlistedWord :
    (waiting 0 [.wire 0 0x0D00]).cfg.legal = true ∧ (waiting 0 [.wire 0 0x0D00]).initDone = true ∧
    (waiting 0 [.wire 0 0x0D00]).turns = [.wire 0 (wireWord 0x0D 0x00)] ∧ UnlistedOpcode 0x0D ∧ UnlistedOpcode 0x0E ∧
    UnlistedOpcode 0x10 ∧ UnlistedOpcode 0xFF :=
  ⟨by decide, by decide, by decide, .inl rfl, .inr (.inl rfl), .inr (.inr (by decide)), .inr (.inr (by decide))⟩

theorem witness_SetLed :
    (0 : Dev).toNat < (booted 1 true true).cfg.n ∧ Memory.read (booted 1 true true).buf (bufIndex 0 7) = some 0x00 ∧
    Memory.read (booted 1 true true).buf (bufIndex 0 0) = some 0x00 := by decide

theorem witness_SetColumn : ∀ r : Idx, Memory.read (booted 1 true true).buf (bufIndex 0 r) = some ((fun _ => 0x00) r) := by decide

theorem witness_SegmentLookup :
    (127 : Byte).toNat ≤ 127 ∧ 127 < (128 : Byte).toNat ∧ (cfgOf 1 true true).legal = true := by decide

/-- No row written; and every row but the last written. -/
theorem witness_UnwrittenRead :
    (0 : Dev).toNat < (fresh 1 true true).cfg.n ∧ Memory.read (fresh 1 true true).buf (bufIndex 0 0) = none ∧
    Memory.read { booted 1 true true with buf := (booted 1 true true).buf.take 7 }.buf (bufIndex 0 6) = some 0x00 ∧
    Memory.read { booted 1 true true with buf := (booted 1 true true).buf.take 7 }.buf (bufIndex 0 7) = none := by decide

theorem witness_SetChar :
    (booted 1 false true).cfg.isMatrix = false ∧ (booted 1 true true).cfg.isMatrix = true ∧
    (0x21 ≤ (0x21 : Byte).toNat ∧ (0x21 : Byte).toNat ≤ 0x7E) ∧ (0x21 ≤ (0x7E : Byte).toNat ∧ (0x7E : Byte).toNat ≤ 0x7E) ∧
    (0x20 : Byte).toNat ≤ 0x20 ∧ 0x7F ≤ (0x7F : Byte).toNat := by decide

/-- An initialized machine with a waiting batch and a waiting SETROW to the row of its first entry. -/
def racing (turns : List Turn) : State :=
  { waiting (hostWord 0x6 0 false 6 0 0xFF) turns with dq := [[⟨0, 6, 0x42⟩, ⟨0, 7, 0x00⟩]] }

theorem witness_RunnerStep :
    (racing [.runner 0]).cfg.legal = true ∧ (racing [.runner 0]).initDone = true ∧ (racing [.runner 0]).turns = [.runner 0] ∧
    (racing [.runner 0]).dq[0]? = some [⟨0, 6, 0x42⟩, ⟨0, 7, 0x00⟩] ∧ (0 : Dev).toNat < (racing [.runner 0]).cfg.n := by decide

theorem witness_Race :
    (racing []).cfg.legal = true ∧ (racing []).initDone = true ∧ (racing []).dq[0]? = some [⟨0, 6, 0x42⟩, ⟨0, 7, 0x00⟩] ∧
    (racing []).commands = [hostWord 0x6 0 false 6 0 0xFF] := by decide

theorem witness_Batches :
    (racing []).cfg.legal = true ∧ (racing []).initDone = true ∧ (0 : Dev).toNat < (racing []).cfg.n ∧
    ({ racing [] with dq := [[⟨0, 0, 1⟩, ⟨0, 1, 2⟩], [⟨0, 0, 3⟩, ⟨0, 1, 4⟩]] }).dq =
      [⟨0, 0, 1⟩ :: [⟨0, 1, 2⟩], ⟨0, 0, 3⟩ :: [⟨0, 1, 4⟩]] ∧ [(⟨0, 1, 2⟩ : Entry)] ≠ [] := by decide

theorem witness_NoInstructionCancels : ∃ t, exec (.clear 0) (racing []) = .next t := next_of_isNext (by decide)

theorem witness_ResetSignal : (racing [.reset]).cfg.legal = true ∧ (racing [.reset]).turns = [.reset] := by decide

theorem witness_Initialization :
    (fresh 2 true true).cfg.legal = true ∧ (fresh 2 true true).initDone = false ∧ (∀ ts, (fresh 2 true true).turns ≠ .reset :: ts) ∧
    (fresh 2 true true).dq = [] ∧ (fresh 2 true true).chips.length = (fresh 2 true true).cfg.n :=
  ⟨by decide, by decide, fun _ => nofun, by decide, by decide⟩

theorem witness_IllegalConfiguration :
    ¬(1 ≤ (fresh 0 true true).cfg.n ∧ (fresh 0 true true).cfg.n ≤ 256) ∧
    ¬(1 ≤ (cfgOf 257 true true).n ∧ (cfgOf 257 true true).n ≤ 256) ∧
    ({ cfgOf 1 true true with segFont := Vector.replicate 128 0xFF }).segFont[32] ≠ 0x00 := by decide

theorem witness_ResetStateIsGood : (cfgOf 256 true true).legal = true ∧ (List.replicate 256 oldChip).length = (cfgOf 256 true true).n :=
  ⟨by decide, List.length_replicate⟩

/-- A good state in the middle of a run: initialized, a host word, a batch and turns waiting. -/
theorem witness_good (turns : List Turn) : Good (racing turns) := by
  have hb : (racing turns).buf = [(0, 0), (1, 0), (2, 0), (3, 0), (4, 0), (5, 0), (6, 0), (7, 0)] := by
    show (booted 1 true true).buf = _
    decide
  refine ⟨?_, ?_, ?_, ⟨?_, ?_⟩, ?_, ?_, ?_, ?_⟩
  · rfl
  · rfl
  · rfl
  · rw [hb]; decide
  · intro i hi
    have h8 : 8 ≤ i := hi
    rw [hb]
    simp only [Memory.read]
    repeat (split; · omega)
    rfl
  · intro _ i hi
    have h8 : i < 8 := hi
    rw [hb]
    interval_cases i <;> exact ⟨_, rfl⟩
  · intro _ a ha r
    have h1 : a < 1 := ha
    interval_cases a
    rw [hb]
    revert r
    show ∀ r, Memory.read _ _ = lastDigit (booted 1 true true).frames 0 r
    decide
  · intro b hm
    have : b = [⟨0, 6, 0x42⟩, ⟨0, 7, 0x00⟩] := List.mem_singleton.1 hm
    subst this
    refine ⟨by simp, ?_, ?_, ?_⟩
    · show ∀ e ∈ ([⟨0, 6, 0x42⟩, ⟨0, 7, 0x00⟩] : Batch), e.a.toNat < 1
      decide
    · decide
    · decide
  · intro h
    exact absurd h (by show ¬true = false; decide)

theorem witness_step_from_good : ∃ t, step (racing [.runner 0, .controller]) = .next t := next_of_isNext (by decide)

theorem witness_EveryRunCompletes : (racing [.controller]).cfg.clearGuard = true := by decide

theorem witness_EveryWaitingWriteIsServed :
    Good (racing [.runner 0]) ∧ (racing [.runner 0]).cfg.clearGuard = true ∧ Turn.reset ∉ (racing [.runner 0]).turns ∧
    servedNow (racing [.runner 0]) = some ⟨0, 6, 0x42⟩ ∧
    servedNow { racing [] with commands := [] } = some ⟨0, 6, 0x42⟩ ∧ servedNow (racing []) = none :=
  ⟨witness_good _, by decide, by decide, by decide, by decide, by decide⟩

theorem witness_UnguardedFault :
    decode (.host 0x40100000) = .ok (.clear 1) ∧
    faultOf (step { booted 1 true false with commands := [0x40100000] }) = some .clearOutOfRange := by decide

theorem witness_ChipsFollowTheBuffer :
    (racing [.runner 0]).chips.length = (racing [.runner 0]).cfg.n ∧ (∀ a w ts, (racing [.runner 0]).turns ≠ .wire a w :: ts) ∧
    ChipsMirrorBuffer (racing [.runner 0]) ∧ ∃ t, step (racing [.runner 0]) = .next t := by
  refine ⟨rfl, fun _ _ _ => nofun, ?_, next_of_isNext (by decide)⟩
  intro _ a c hc r
  have hlen : (racing [.runner 0]).chips.length = 1 := rfl
  have ha : a < 1 := hlen ▸ (List.getElem?_eq_some_iff.1 hc).1
  interval_cases a
  have hh : ∀ q : Idx, Memory.read (booted 1 true true).buf (bufIndex 0 q) = (booted 1 true true).chips[0]?.map (Chip.get (.digit q)) := by
    decide
  have := hh r
  rw [show (booted 1 true true).chips[0]? = some c from hc] at this
  exact this

end Sys2Proof.Tests
end

section
/-! PROOFS. The buffer invariant (R23): what one more frame does to `lastDigit`, then what sends, row writes, the
initialization sequence and so every step do to `BufferMirrorsFrames`. -/

namespace Sys2Proof.Machine

/-! ### The last DIGIT(r) of a run -/

/-- NOOP, which fills every slot but the target's, is no DIGIT command (R86). -/
theorem zero_ne_opDigit (r : Idx) : 0x00#8 ≠ opDigit r := by
  revert r; decide

theorem opDigit_injective : Function.Injective opDigit := by
  unfold Function.Injective; decide

/-- One more frame counts for device `a` and row `r` exactly when it carries DIGIT(r) to `a`. -/
theorem lastDigit_append_frameBytes {n b : Nat} (hb : b < n) (fs : List (List Byte)) (op d : Byte) (a : Nat) (r : Idx) :
    lastDigit (fs ++ [frameBytes n b op d]) a r = if a = b ∧ op = opDigit r then some d else lastDigit fs a r := by
  simp only [lastDigit, List.foldl_append, List.foldl_cons, List.foldl_nil, slotOp_frameBytes n b op d a hb,
    slotData_frameBytes n b op d a hb]
  by_cases hab : a = b
  · simp [hab]
  · simp [hab, zero_ne_opDigit]

/-- When commands to valid devices include a DIGIT(r) to `a`, and every such one carries `v`, then `v` was sent last. -/
theorem lastDigit_append_sent {n : Nat} {xs : List Sent} {a : Nat} {r : Idx} {v : Byte} (fs : List (List Byte))
    (hvalid : ∀ x ∈ xs, x.1 < n) (hsent : ∃ x ∈ xs, x.1 = a ∧ x.2.1 = opDigit r)
    (hdata : ∀ x ∈ xs, x.1 = a → x.2.1 = opDigit r → x.2.2 = v) :
    lastDigit (fs ++ xs.map (Sent.frame n)) a r = some v := by
  induction xs using List.reverseRecOn with
  | nil => simp at hsent
  | append_singleton xs x ih =>
    simp only [List.mem_append, List.mem_singleton, or_imp, forall_and, forall_eq] at hvalid hdata
    obtain ⟨hvalid, hvalidLast⟩ := hvalid
    obtain ⟨hdata, hdataLast⟩ := hdata
    rw [List.map_append, ← List.append_assoc, List.map_singleton, Sent.frame, lastDigit_append_frameBytes hvalidLast]
    split
    next hx => rw [hdataLast hx.1.symm hx.2]
    next hx =>
      obtain ⟨y, hy, hya, hyr⟩ := hsent
      have hmem : y ∈ xs := (List.mem_append.1 hy).resolve_right fun h =>
        hx (List.mem_singleton.1 h ▸ ⟨hya.symm, hyr⟩)
      exact ih hvalid ⟨y, hmem, hya, hyr⟩ hdata

/-! ### The commands of the initialization sequence -/

theorem hostOps_ne_opDigit {op : Byte} (ho : op ∈ hostOps) (r : Idx) : op ≠ opDigit r := by
  revert op r; decide

/-- The initialization of a device is its clearing loop between four control commands (R232). -/
theorem initCommands_eq (a : Nat) :
    initCommands a =
      [(a, opDisplayTest, 0x00), (a, opScanLimit, 0x07), (a, opDecodeMode, 0x00)] ++
        rows.map (fun r => (a, opDigit r, 0x00)) ++ [(a, opShutdown, 0x00)] := rfl

theorem initCommands_device {a : Nat} {x : Sent} (hx : x ∈ initCommands a) : x.1 = a := by
  simp only [initCommands_eq, List.mem_append, List.mem_cons, List.mem_map, List.not_mem_nil, or_false] at hx
  rcases hx with ((rfl | rfl | rfl) | ⟨_, _, rfl⟩) | rfl <;> rfl

theorem opDigit_mem_initCommands (a : Nat) (r : Idx) : (a, opDigit r, 0x00#8) ∈ initCommands a := by
  simp [initCommands_eq]

/-- The one initialization command with data other than 0 is SCANLIMIT, which is no DIGIT command. -/
theorem initCommands_digit_data {a : Nat} {x : Sent} {r : Idx} (hx : x ∈ initCommands a) (hr : x.2.1 = opDigit r) :
    x.2.2 = 0x00 := by
  have hscan : opScanLimit ≠ opDigit r := hostOps_ne_opDigit (by decide) r
  simp only [initCommands_eq, List.mem_append, List.mem_cons, List.mem_map, List.not_mem_nil, or_false] at hx
  rcases hx with ((rfl | rfl | rfl) | ⟨_, _, rfl⟩) | rfl
  · rfl
  · exact absurd hr hscan
  · rfl
  · rfl
  · rfl

/-- After the initialization of all `n` devices the last DIGIT(r) of each carried 0 (R232). -/
theorem lastDigit_append_init {n a : Nat} (ha : a < n) (fs : List (List Byte)) (r : Idx) :
    lastDigit (fs ++ ((List.range n).flatMap initCommands).map (Sent.frame n)) a r = some 0x00 := by
  refine lastDigit_append_sent fs (fun x hx => ?_) ⟨(a, opDigit r, 0x00), ?_, rfl, rfl⟩ (fun x hx _ hr => ?_)
  · obtain ⟨b, hb, hx⟩ := List.mem_flatMap.1 hx
    exact initCommands_device hx ▸ List.mem_range.1 hb
  · exact List.mem_flatMap.2 ⟨a, List.mem_range.2 ha, opDigit_mem_initCommands a r⟩
  · obtain ⟨b, -, hx⟩ := List.mem_flatMap.1 hx
    exact initCommands_digit_data hx hr

/-! ### The invariant under each update of the state -/

@[simp] theorem bufferMirrorsFrames_latchReg (a : Nat) (q : ChipReg) (d : Byte) (s : State) :
    BufferMirrorsFrames (latchReg a q d s) ↔ BufferMirrorsFrames s := Iff.rfl

@[simp] theorem bufferMirrorsFrames_defer (b : Batch) (s : State) :
    BufferMirrorsFrames (defer b s) ↔ BufferMirrorsFrames s := Iff.rfl

/-- The inputs a step uses up and the queue are no part of the buffer invariant. -/
theorem UsedUp.bufferMirrorsFrames {s t : State} {dq : List Batch} (hu : UsedUp s t dq) (h : BufferMirrorsFrames s) :
    BufferMirrorsFrames t := by
  obtain ⟨ws, ts, rfl, -, -⟩ := hu
  exact h

/-- After the reset signal nothing is asked until the initialization is done again. -/
theorem bufferMirrorsFrames_reboot (s : State) : BufferMirrorsFrames (reboot s) :=
  fun hdone => absurd hdone (by simp)

/-- A command other than a DIGIT leaves both the buffer and the last DIGIT(r) alone. -/
theorem BufferMirrorsFrames.emit_control {s : State} {b : Nat} {op : Byte} (hb : b < s.cfg.n)
    (ho : ∀ r, op ≠ opDigit r) (d : Byte) (h : BufferMirrorsFrames s) :
    BufferMirrorsFrames (emit (frameBytes s.cfg.n b op d) s) := by
  intro hdone a ha r
  simpa [lastDigit_append_frameBytes hb, ho r] using h hdone a ha r

/-- A row write changes the buffer byte and the last DIGIT(r) of the same device and row, to the same byte (R23). -/
theorem BufferMirrorsFrames.emit_row {s : State} {b : Nat} (hb : b < s.cfg.n) (q : Idx) (v : Byte)
    (h : BufferMirrorsFrames s) :
    BufferMirrorsFrames (emit (frameBytes s.cfg.n b (opDigit q) v) (setByte (bufIndex b q) v s)) := by
  intro hdone a ha r
  simp only [emit_buf, setByte_buf, emit_frames, setByte_frames, lastDigit_append_frameBytes hb,
    opDigit_injective.eq_iff]
  by_cases hrow : a = b ∧ q = r
  · obtain ⟨rfl, rfl⟩ := hrow
    simp
  · have hindex : bufIndex a r ≠ bufIndex b q := fun e => hrow ⟨(bufIndex_inj e).1, (bufIndex_inj e).2.symm⟩
    rw [Memory.read_write_ne _ _ hindex, if_neg hrow]
    exact h hdone a ha r

/-! ### The invariant under meanings and steps -/

/-- Row writes, and sends of control commands none of which is a DIGIT, keep the buffer invariant. -/
theorem Acts.bufferMirrorsFrames {ops : List Byte} {s t : State} (hops : ∀ op ∈ ops, ∀ r, op ≠ opDigit r)
    (hacts : Acts ops s t) (h : BufferMirrorsFrames s) : BufferMirrorsFrames t := by
  induction hacts with
  | refl => exact h
  | send a op d _ ha ho ih => exact ih.emit_control ha (hops op ho) d
  | row a r v _ ha ih => exact ih.emit_row ha r v

/-- Every instruction keeps the buffer invariant. -/
theorem exec_bufferMirrorsFrames {i : Instr} {s t : State} (hexec : exec i s = .next t) (h : BufferMirrorsFrames s) :
    BufferMirrorsFrames t := by
  rcases exec_cases i s t hexec with hacts | ⟨_, _, _, _, _, _, _, _, _, rfl⟩ | ⟨_, _, rfl, _⟩
  · exact hacts.bufferMirrorsFrames (fun _ ho => hostOps_ne_opDigit ho) h
  · simpa using h
  · simpa using h

/-- The initialization sequence establishes the buffer invariant, whatever the buffer and the earlier frames held (R234). -/
theorem initSequence_bufferMirrorsFrames {s t : State} (hinit : initSequence s = .next t) : BufferMirrorsFrames t := by
  obtain ⟨u, hnext, ⟨hframes, -, -, -, hcfg, -⟩, hzero, -⟩ := initSequence_next s
  obtain rfl : { u with initDone := true } = t := Host.Outcome.next.inj (hnext.symm.trans hinit)
  intro _ a ha r
  have ha : a < s.cfg.n := hcfg ▸ ha
  calc Memory.read u.buf (bufIndex a r)
    _ = some 0x00 := hzero a ha r
    _ = lastDigit u.frames a r := by rw [hframes, lastDigit_append_init ha]

/-- Settles O43, by the cases of `step_cases`: a reset makes it vacuous, the initialization establishes it, and an instruction
or a deferred row write keeps it, since every row write is the pair of a buffer byte and the frame that carries it. -/
theorem bufferHoldsTheLastDigitSent : Obligations.BufferHoldsTheLastDigitSent := by
  intro s t h hstep
  obtain ⟨-, hcase⟩ := step_cases s t hstep
  cases hcase with
  | reset ts _ ht => exact ht ▸ bufferMirrorsFrames_reboot _
  | init _ hinit => exact initSequence_bufferMirrorsFrames hinit
  | instr u _ hu ht =>
    have hmirror := hu.bufferMirrorsFrames h
    rcases ht with rfl | ⟨i, hexec, -⟩
    · exact hmirror
    · exact exec_bufferMirrorsFrames hexec hmirror
  | runner u k e rest _ _ hu hrow =>
    exact (writeRow_acts hrow).bufferMirrorsFrames (fun _ ho => hostOps_ne_opDigit ho) (hu.bufferMirrorsFrames h)

end Sys2Proof.Machine
end

section
/-! PROOFS. The memory family: the device-address check of the instructions that carry it themselves (R51), and the clamp of
the 7-segment lookup (R60). -/

namespace Sys2Proof.Machine

/-! ### The device-address check -/

section invalidAddress
variable {s : State} {a : Dev} (h : ¬valid s a.toNat)
include h

theorem execSetScanLimit_invalid (limit : Byte) : execSetScanLimit a limit s = .next s := if_neg h

theorem execSetBrightness_invalid (v : Byte) : execSetBrightness a v s = .next s := if_neg h

theorem execSetColumn_invalid (col : Idx) (v : Byte) : execSetColumn a col v s = .next s := if_neg h

/-- The address is checked before the mode is looked at (R180). -/
theorem execSetChar_invalid (digit : Idx) (v : Byte) (dp : Bool) : execSetChar a digit v dp s = .next s := if_neg h

/-- Only CLEAR_GUARD = 1 makes the address check of CLEAR silent (R150). -/
theorem execClear_invalid_guarded (hguard : s.cfg.clearGuard = true) : execClear a s = .next s :=
  (if_neg h).trans (if_pos hguard)

end invalidAddress

/-- Settles O22: the address check stands first in each operation, the shared ones (SHUTDOWN, SETROW, SETLED, SETDIGIT)
included. -/
theorem invalidAddressDoesNothing : Obligations.InvalidAddressDoesNothing := by
  intro s a h
  refine ⟨fun f => ?shutdown, ?on, ?off, fun v => ?setScanLimit, fun v => ?setBrightness, fun r c f => ?setLed,
    fun r v => ?setRow, fun c v => ?setColumn, fun r v p => ?setDigit, fun r v p => ?setChar, fun hguard => ?clear⟩
  case shutdown => exact setPower_invalid s _ f h
  case on => exact setPower_invalid s _ false h
  case off => exact setPower_invalid s _ true h
  case setScanLimit => exact execSetScanLimit_invalid h v
  case setBrightness => exact execSetBrightness_invalid h v
  case setLed => exact writeLed_invalid s _ r c f h
  case setRow => exact writeRow_invalid s _ r v h
  case setColumn => exact execSetColumn_invalid h c v
  case setDigit => exact writeDigit_invalid s _ r v p h
  case setChar => exact execSetChar_invalid h r v p
  case clear => exact execClear_invalid_guarded h hguard

/-! ### The 7-segment lookup -/

theorem segRom_of_lt {v : Byte} (c : Cfg) (h : v.toNat < 128) : segRom c v = c.segFont[v.toNat] := dif_pos h

theorem segRom_of_not_lt {v : Byte} (c : Cfg) (h : ¬v.toNat < 128) : segRom c v = c.segFont[32] := dif_neg h

theorem Cfg.legal_iff (c : Cfg) : c.legal = true ↔ 1 ≤ c.n ∧ c.n ≤ 256 ∧ c.segFont[32] = 0x00 := by
  simp [Cfg.legal, and_assoc]

/-- Settles O27: the two sides of the clamp, and the blank entry of a legal configuration (R21). -/
theorem segmentLookupClampsToBlank : Obligations.SegmentLookupClampsToBlank := by
  intro c v
  have clamped (hv : 127 < v.toNat) : segRom c v = c.segFont[32] := segRom_of_not_lt c (by omega)
  refine ⟨fun hv => ?inTable, clamped, fun hlegal hv => ?blank⟩
  case inTable =>
    have hlt : v.toNat < 128 := by omega
    rw [segRom_of_lt c hlt, Vector.getElem?_eq_getElem hlt]
  case blank =>
    obtain ⟨-, -, hblank⟩ := c.legal_iff.1 hlegal
    exact (clamped hv).trans hblank

end Sys2Proof.Machine
end

section
/-! PROOFS. The encoding family: the reserved host words (R85) by way of the fields that R84 marks zero, the frame as a number
(R89, R101), and the two names of SHUTDOWN (R91). -/

namespace Sys2Proof

/-! ### The fields of a host word as masks -/

/-- A field is zero exactly when its mask, `n` ones from bit `k` up, finds no bit. -/
theorem extractLsb'_eq_zero_iff (w : HostWord) (k n : Nat) :
    w.extractLsb' k n = 0#n ↔ w &&& (BitVec.allOnes n).setWidth 32 <<< k = 0#32 := by
  constructor
  · intro h
    ext i hi
    have hbit : (w.extractLsb' k n).getLsbD (i - k) = false := by simp [h]
    grind
  · intro h
    ext i hi
    have hbit : (w &&& (BitVec.allOnes n).setWidth 32 <<< k).getLsbD (k + i) = false := by simp [h]
    grind

theorem fieldF_eq_false_iff (w : HostWord) : fieldF w = false ↔ w &&& 0x00080000#32 = 0#32 := by
  have hbit : fieldF w = false ↔ w.extractLsb' 19 1 = 0#1 := by simp [fieldF, BitVec.eq_of_getLsbD_eq_iff]
  exact hbit.trans (extractLsb'_eq_zero_iff w 19 1)

theorem fieldIdx_eq_zero_iff (w : HostWord) : fieldIdx w = 0#3 ↔ w &&& 0x00070000#32 = 0#32 :=
  extractLsb'_eq_zero_iff w 16 3

theorem fieldRsv_eq_zero_iff (w : HostWord) : fieldRsv w = 0#5 ↔ w &&& 0x0000F800#32 = 0#32 :=
  extractLsb'_eq_zero_iff w 11 5

theorem fieldCol_eq_zero_iff (w : HostWord) : fieldCol w = 0#3 ↔ w &&& 0x00000700#32 = 0#32 :=
  extractLsb'_eq_zero_iff w 8 3

theorem fieldData_eq_zero_iff (w : HostWord) : fieldData w = 0#8 ↔ w &&& 0x000000FF#32 = 0#32 :=
  extractLsb'_eq_zero_iff w 0 8

/-- Two masks find no bit exactly when their union finds none. -/
theorem and_eq_zero_and_iff (w m k : HostWord) : w &&& m = 0#32 ∧ w &&& k = 0#32 ↔ w &&& (m ||| k) = 0#32 := by
  rw [BitVec.and_or_distrib_left, BitVec.or_eq_zero_iff]

theorem fieldOp_toNat (w : HostWord) : (fieldOp w).toNat = (w >>> 28).toNat := by
  simp only [fieldOp, BitVec.extractLsb'_toNat, BitVec.toNat_ushiftRight, Nat.shiftRight_eq_div_pow]
  omega

/-! ### The bytes of a wire word -/

theorem toNat_eq_wireData_add_wireOp (w : WireWord) : w.toNat = (wireData w).toNat + 256 * (wireOp w).toNat := by
  simp only [wireData, wireOp, BitVec.extractLsb'_toNat, Nat.shiftRight_eq_div_pow]
  omega

theorem wireWord_toNat (op d : Byte) : (wireWord op d).toNat = d.toNat + 256 * op.toNat := by
  simpa using toNat_eq_wireData_add_wireOp (wireWord op d)

/-! ### The words of SHUTDOWN -/

theorem decode_encode_shutdown (a : Dev) (f : Bool) : decode (encode (.shutdown a f)) = .ok (.shutdown a f) := by
  simp [encode, decode, decodeHost, ifZero]

theorem hostWord_shutdown_false (a : Dev) : hostWord 0x1 a false 0 0 0 = 0x10000000#32 ||| a.setWidth 32 <<< 20 := by
  simp [hostWord]

theorem hostWord_shutdown_true (a : Dev) : hostWord 0x1 a true 0 0 0 = 0x10080000#32 ||| a.setWidth 32 <<< 20 :=
  calc hostWord 0x1 a true 0 0 0
    _ = 0x10000000#32 ||| a.setWidth 32 <<< 20 ||| 0x00080000#32 := by simp [hostWord]
    _ = 0x10000000#32 ||| 0x00080000#32 ||| a.setWidth 32 <<< 20 := by
      rw [BitVec.or_assoc, BitVec.or_comm (_ <<< _), ← BitVec.or_assoc]

namespace Machine

/-! ### Reserved words -/

theorem exists_ifZero_eq_error_iff (b : Bool) (i : Instr) : (∃ r, ifZero b i = .error r) ↔ b = false := by
  cases b <;> simp [ifZero]

/-- One row of R84: where the zero bits of the operation are exactly the fields the decoder checks, the word is reserved
exactly when the check fails. -/
theorem reservedWord_iff_ifZero_error {w m : HostWord} {op : Nat} {b : Bool} (i : Instr) (hop : (fieldOp w).toNat = op)
    (hmask : zeroBits op = some m) (hfields : b = true ↔ w &&& m = 0) :
    ReservedWord w ↔ ∃ r, ifZero b i = .error r := by
  rw [exists_ifZero_eq_error_iff, ← Bool.not_eq_true, hfields, ReservedWord, ← fieldOp_toNat, hop, hmask]
  simp

/-- The decoder rejects exactly the reserved words: row by row of R84, the fields it checks have the row's zero bits as the
union of their masks. -/
theorem reservedWord_iff_decode_error (w : HostWord) : ReservedWord w ↔ ∃ r, decode (.host w) = .error r := by
  rw [decode, decodeHost]
  split
  case h_10 =>
    rw [ReservedWord, ← fieldOp_toNat]
    simp [zeroBits, *]
  all_goals
    refine reservedWord_iff_ifZero_error _ ‹_› rfl ?_
    simp [fieldF_eq_false_iff, fieldIdx_eq_zero_iff, fieldRsv_eq_zero_iff, fieldCol_eq_zero_iff, fieldData_eq_zero_iff,
      and_eq_zero_and_iff]

theorem runCode_of_error {c : Code} {r : Reject} (h : decode c = .error r) (s : State) : runCode c s = .next s := by
  simp [runCode, h]

/-- On the controller's turn an initialized block takes the waiting word and runs it (R33). -/
theorem step_controller {s : State} {w : HostWord} {ws : List HostWord} {ts : List Turn} (hlegal : s.cfg.legal = true)
    (hinit : s.initDone = true) (hcommands : s.commands = w :: ws) (hturns : s.turns = .controller :: ts) :
    step s = runCode (.host w) { s with commands := ws, turns := ts } := by
  simp [step, takeTurn, acceptCommand, hlegal, hinit, hcommands, hturns]

/-- Settles O4: the controller runs the accepted word, and running a word that the decoder rejects changes nothing. -/
theorem reservedHostWordIsIgnored : Obligations.ReservedHostWordIsIgnored := by
  refine ⟨reservedWord_iff_decode_error, fun s w ws ts hlegal hinit hcommands hreserved hturns => ?_⟩
  obtain ⟨r, hreject⟩ := (reservedWord_iff_decode_error w).1 hreserved
  rw [step_controller hlegal hinit hcommands hturns, runCode_of_error hreject]

/-! ### The frame as a number -/

/-- A frame is the slots below the target, the target's two bytes, and the slots above it (R89). -/
theorem frameBytes_eq_append {n a : Nat} (h : a < n) (op d : Byte) :
    frameBytes n a op d = List.replicate (2 * a) 0#8 ++ d :: op :: List.replicate (2 * (n - a - 1)) 0#8 := by
  apply List.ext_getElem?
  intro j
  by_cases hj : j < 2 * n
  · rw [frameBytes_getElem? n a op d j hj]
    grind
  · grind [frameBytes_length]

theorem frameValue_append (f g : List Byte) : frameValue (f ++ g) = frameValue f + 256 ^ f.length * frameValue g := by
  induction f with
  | nil => simp [frameValue]
  | cons b f ih =>
    simp only [List.cons_append, frameValue, ih, List.length_cons]
    ring

@[simp] theorem frameValue_replicate_zero (k : Nat) : frameValue (List.replicate k 0#8) = 0 := by
  induction k with
  | zero => rfl
  | succ k ih => simp [List.replicate_succ, frameValue, ih]

/-- Settles O10: the 2a zero bytes below the target's slot shift its word up by 16a bits, and the zero bytes above it add
nothing. -/
theorem frameIsTheShiftedWord : Obligations.FrameIsTheShiftedWord := by
  intro n a op d ha
  refine ⟨frameBytes_length n a op d, frameBytes_getElem? n a op d, ?_⟩
  have hweight : 256 ^ (2 * a) = 2 ^ (16 * a) := by rw [show 16 * a = 8 * (2 * a) by omega, pow_mul 2 8]; rfl
  calc frameValue (frameBytes n a op d)
    _ = 256 ^ (2 * a) * (d.toNat + 256 * op.toNat) := by
      simp [frameBytes_eq_append ha, frameValue_append, frameValue]
    _ = (wireWord op d).toNat <<< (16 * a) := by
      rw [hweight, wireWord_toNat, Nat.shiftLeft_eq, Nat.mul_comm]

/-! ### ON and OFF -/

/-- Settles O5: ON and OFF have the codes and the meanings of the two SHUTDOWNs they expand to. -/
theorem onAndOffExpandToShutdown : Obligations.OnAndOffExpandToShutdown := by
  intro a
  obtain ⟨-, hon⟩ := Laws.Expansion.on a
  obtain ⟨-, hoff⟩ := Laws.Expansion.off a
  refine ⟨?onWord, ?offWord, ?onDecodes, ?offDecodes, fun s => ⟨rfl, rfl⟩⟩
  case onWord => exact congrArg Code.host (hostWord_shutdown_false a)
  case offWord => exact congrArg Code.host (hostWord_shutdown_true a)
  case onDecodes => exact hon ▸ decode_encode_shutdown a false
  case offDecodes => exact hoff ▸ decode_encode_shutdown a true

end Machine

end Sys2Proof
end

section
/-! PROOFS. The protocol engine: SEND down to the ports and to the registers of the chips (R100 to R107, R125), and what each
wire word does at the device that latches it (R110 to R124). -/

namespace Sys2Proof

/-! ### The bytes of a concatenated wire word -/

/-- The concatenation of two bytes is their wire word (R86). -/
theorem append_eq_wireWord (op d : Byte) : op ++ d = wireWord op d := by
  rw [wireWord, BitVec.append_def, BitVec.shiftLeftZeroExtend_eq, BitVec.setWidth'_eq]

@[simp] theorem wireOp_append (op d : Byte) : wireOp (op ++ d) = op := by
  rw [append_eq_wireWord, wireOp_wireWord]

@[simp] theorem wireData_append (op d : Byte) : wireData (op ++ d) = d := by
  rw [append_eq_wireWord, wireData_wireWord]

namespace Machine

/-! ### SEND and the ports -/

theorem send_valid {s : State} {a : Nat} (op d : Byte) (h : valid s a) :
    send a op d s = .next (emit (frameBytes s.cfg.n a op d) s) := if_pos h

theorem send_eq_next_iff {s t : State} {a : Nat} {op d : Byte} :
    send a op d s = .next t ↔ valid s a ∧ emit (frameBytes s.cfg.n a op d) s = t := by
  by_cases h : valid s a
  · simp [send_valid op d h, h]
  · simp [send_fault s a op d h, h]

@[simp] theorem emit_pinTrace (f : List Byte) (s : State) : (emit f s).pinTrace = s.pinTrace ++ frameEvents f := by
  simp [State.pinTrace]

/-- The byte shifted last, frame[0], decides where DIN stays (R31, R105). -/
theorem frameEvents_cons_ports (b : Byte) (f : List Byte) (p : Ports) :
    (frameEvents (b :: f)).foldl Ports.drive p = { cs := .high, clk := .low, din := bitLevel (b.getLsbD 0) } := by
  simp [frameEvents, byteEvents_ports, Ports.drive]

/-- Byte 0 of a frame is the data byte of slot 0 (R101). -/
theorem frameBytes_eq_cons {n a : Nat} (h : a < n) (op d : Byte) :
    ∃ f, frameBytes n a op d = (if a = 0 then d else 0x00) :: f := by
  rw [frameBytes_eq_append h]
  cases a <;> exact ⟨_, rfl⟩

theorem emit_frameBytes_ports {n a : Nat} (h : a < n) (op d : Byte) (s : State) :
    (emit (frameBytes n a op d) s).ports =
      { cs := .high, clk := .low, din := bitLevel (if a = 0 then d.getLsbD 0 else false) } := by
  obtain ⟨f, hf⟩ := frameBytes_eq_cons h op d
  rw [emit_ports, hf, frameEvents_cons_ports]
  split <;> rfl

/-- Settles O9: SEND is the one emitted frame or the fault, by the address check that stands first in it. -/
theorem sendEmitsOneFrameOrFaults : Obligations.SendEmitsOneFrameOrFaults := by
  refine fun s a op d => ⟨fun ha => ⟨_, send_valid op d ha, ?pins, emit_frameBytes_ports ha op d s, ?buffer, ?rest⟩,
    send_fault s a op d⟩
  case pins => exact emit_pinTrace _ s
  case buffer => exact fun _ => rfl
  case rest => exact ⟨rfl, rfl, rfl, rfl, rfl⟩

/-! ### The registers after a frame -/

/-- A latched word writes the register of its opcode, if it has one, and no other (R110 to R124). -/
theorem get_latch (op d : Byte) (c : Chip) (r : ChipReg) :
    (c.latch op d).get r = if regOfOpcode op = some r then d else c.get r := by
  cases hop : regOfOpcode op with
  | none => simp [Chip.latch, hop]
  | some q =>
    by_cases hq : q = r
    · simp [Chip.latch, hop, hq]
    · simp [Chip.latch, hop, hq, get_put_ne q r d c (Ne.symm hq)]

/-- Settles O15: the slots of the frame, and the one chip that latches a word other than NOOP. -/
theorem frameChangesAtMostOneRegister : Obligations.FrameChangesAtMostOneRegister := by
  intro s t a op d hsend
  obtain ⟨ha, rfl⟩ := send_eq_next_iff.1 hsend
  refine ⟨by simp, fun b hb => ?slots, fun b c c' hc hc' r => ?registers⟩
  case slots => simp [slotOp_frameBytes _ _ _ _ _ ha, slotData_frameBytes _ _ _ _ _ ha, hb]
  case registers =>
    rw [emit_frameBytes_chips s _ a op d ha, hc, Option.map_some, Option.some_inj] at hc'
    subst hc'
    by_cases hb : a = b
    · simp [hb, get_latch]
    · simp [hb, Ne.symm hb]

/-! ### Wire commands -/

theorem latchReg_latchesOnly (s : State) (a : Nat) (r : ChipReg) (d : Byte) :
    LatchesOnly s (latchReg a r d s) a (Chip.put r d) := by
  refine ⟨rfl, ?target, fun b hb => ?others⟩
  case target => rw [latchReg_chip, if_pos rfl]
  case others => rw [latchReg_chip, if_neg (Ne.symm hb), Option.map_id, id]

/-- A wire word that decodes to a command, and the command's meaning, a write to register `r` of the device alone. -/
theorem wireCommand_latchesOnly {s : State} {a : Dev} {op d : Byte} {i : Instr} (r : ChipReg)
    (hdecode : decodeWire a (op ++ d) = .ok i) (hexec : exec i s = .next (latchReg a.toNat r d s)) :
    decode (.wire a (op ++ d)) = .ok i ∧ ∃ t, exec i s = .next t ∧ LatchesOnly s t a.toNat (Chip.put r d) :=
  ⟨hdecode, _, hexec, latchReg_latchesOnly s a.toNat r d⟩

/-- Settles O17: DIGIT0 to DIGIT7, each by its row of R86 and its meaning. -/
theorem wireDigitCommandsSetOneDigit : Obligations.WireDigitCommandsSetOneDigit := by
  refine fun s a d => ⟨?digit0, ?digit1, ?digit2, ?digit3, ?digit4, ?digit5, ?digit6, ?digit7⟩
  case digit0 => exact wireCommand_latchesOnly (.digit 0) (by simp [decodeWire]) rfl
  case digit1 => exact wireCommand_latchesOnly (.digit 1) (by simp [decodeWire]) rfl
  case digit2 => exact wireCommand_latchesOnly (.digit 2) (by simp [decodeWire]) rfl
  case digit3 => exact wireCommand_latchesOnly (.digit 3) (by simp [decodeWire]) rfl
  case digit4 => exact wireCommand_latchesOnly (.digit 4) (by simp [decodeWire]) rfl
  case digit5 => exact wireCommand_latchesOnly (.digit 5) (by simp [decodeWire]) rfl
  case digit6 => exact wireCommand_latchesOnly (.digit 6) (by simp [decodeWire]) rfl
  case digit7 => exact wireCommand_latchesOnly (.digit 7) (by simp [decodeWire]) rfl

/-- Settles O18: the five control commands, each by its row of R86 and its meaning. -/
theorem wireControlCommandsSetOneRegister : Obligations.WireControlCommandsSetOneRegister := by
  refine fun s a d => ⟨?decodeMode, ?intensity, ?scanLimit, ?shutdown, ?displayTest⟩
  case decodeMode => exact wireCommand_latchesOnly .decode (by simp [decodeWire]) rfl
  case intensity => exact wireCommand_latchesOnly .intensity (by simp [decodeWire]) rfl
  case scanLimit => exact wireCommand_latchesOnly .scanLimit (by simp [decodeWire]) rfl
  case shutdown => exact wireCommand_latchesOnly .shutdown (by simp [decodeWire]) rfl
  case displayTest => exact wireCommand_latchesOnly .test (by simp [decodeWire]) rfl

/-! ### Words that write no register -/

theorem decode_noop (a : Dev) (d : Byte) : decode (.wire a (0x00#8 ++ d)) = .ok (.noop a d) := by
  simp [decode, decodeWire]

/-- The decoder rejects the words that R87 calls unlisted, since R86 lists no opcode above 0x0F. -/
theorem decode_wireWord_unlisted {op : Byte} (h : UnlistedOpcode op) (a : Dev) (d : Byte) :
    decode (.wire a (wireWord op d)) = .error .unlistedOpcode := by
  rcases h with rfl | rfl | h
  · simp [decode, decodeWire]
  · simp [decode, decodeWire]
  · rw [decode, decodeWire, wireOp_wireWord]
    split
    case h_15 => rfl
    all_goals omega

/-- On a turn of another driver the device of the slot latches its word (R124). -/
theorem step_wire {s : State} {a : Dev} {w : WireWord} {ts : List Turn} (hlegal : s.cfg.legal = true)
    (hinit : s.initDone = true) (hturns : s.turns = .wire a w :: ts) :
    step s = runCode (.wire a w) { s with turns := ts } := by
  simp [step, takeTurn, hlegal, hinit, hturns]

/-- Settles O19: NOOP decodes and means nothing, and running a word that the decoder rejects changes nothing. -/
theorem noopAndUnlistedWordsChangeNothing : Obligations.NoopAndUnlistedWordsChangeNothing := by
  refine ⟨fun s a d => ⟨decode_noop a d, rfl⟩, fun s a op d ts hlegal hinit hunlisted hturns => ?_⟩
  rw [step_wire hlegal hinit hturns, runCode_of_error (decode_wireWord_unlisted hunlisted a d)]

end Machine

end Sys2Proof
end

section
/-! PROOFS. The power and configuration family: the one word of each host instruction (R80, R84), and the one command that
SHUTDOWN, ON, OFF, SETSCANLIMIT and SETBRIGHTNESS send (R130 to R134). -/

namespace Sys2Proof

/-! ### An accepted host word is the word of its instruction -/

/-- The field of `n` bits from bit `k` up, put back in its place, is the word under the field's mask. -/
theorem setWidth_extractLsb'_shiftLeft (w : HostWord) (k n : Nat) :
    (w.extractLsb' k n).setWidth 32 <<< k = w &&& (BitVec.allOnes n).setWidth 32 <<< k := by
  ext i hi
  grind

theorem ofBool_fieldF (w : HostWord) : BitVec.ofBool (fieldF w) = w.extractLsb' 19 1 := by
  simp [fieldF, BitVec.eq_of_getLsbD_eq_iff]

/-- The fields of a host word hold every bit of it but those of RSV (R80). -/
theorem hostWord_fields (w : HostWord) :
    hostWord (fieldOp w) (fieldAddr w) (fieldF w) (fieldIdx w) (fieldCol w) (fieldData w) = w &&& 0xFFFF07FF#32 := by
  have hdata : (fieldData w).setWidth 32 = w &&& 0x000000FF#32 := by
    simpa [fieldData] using setWidth_extractLsb'_shiftLeft w 0 8
  rw [hostWord, hdata, ofBool_fieldF, fieldOp, fieldAddr, fieldIdx, fieldCol]
  simp only [setWidth_extractLsb'_shiftLeft, ← BitVec.and_or_distrib_left]
  rfl

/-- With RSV zero a host word is assembled from its fields. -/
theorem hostWord_of_fields {w : HostWord} {op : Nat} (hop : (fieldOp w).toNat = op) (hrsv : fieldRsv w = 0#5) :
    hostWord (BitVec.ofNat 4 op) (fieldAddr w) (fieldF w) (fieldIdx w) (fieldCol w) (fieldData w) = w := by
  subst hop
  rw [BitVec.ofNat_toNat, BitVec.setWidth_eq, hostWord_fields]
  calc w &&& 0xFFFF07FF#32
    _ = w &&& 0xFFFF07FF#32 ||| w &&& 0x0000F800#32 := by rw [(fieldRsv_eq_zero_iff w).1 hrsv, BitVec.or_zero]
    _ = w &&& BitVec.allOnes 32 := (BitVec.and_or_distrib_left ..).symm
    _ = w := BitVec.and_allOnes

theorem ifZero_eq_ok_iff {b : Bool} {i j : Instr} : ifZero b i = .ok j ↔ b = true ∧ i = j := by
  cases b <;> simp [ifZero]

/-- No bit of an accepted host word is ignored: row by row of R84, each field is an operand, or checked to be zero. -/
theorem encode_of_decode_host {w : HostWord} {i : Instr} (h : decode (.host w) = .ok i) : encode i = .host w := by
  rw [decode, decodeHost] at h
  split at h
  case h_10 => cases h
  all_goals
    rename_i hop
    obtain ⟨hzero, rfl⟩ := ifZero_eq_ok_iff.1 h
    simp only [Bool.and_eq_true, Bool.not_eq_true', beq_iff_eq] at hzero
    have hword := hostWord_of_fields hop (by simp [hzero])
    simpa [encode, hzero] using hword

/-- A host instruction that its own word decodes to is decoded from no other word. -/
theorem decode_host_eq_ok_iff {i : Instr} {x : HostWord} (hword : encode i = .host x) (hdecode : decode (encode i) = .ok i)
    (w : HostWord) : decode (.host w) = .ok i ↔ w = x := by
  constructor
  · intro h
    exact Code.host.inj ((encode_of_decode_host h).symm.trans hword)
  · rintro rfl
    exact hword ▸ hdecode

/-! ### The words of SETSCANLIMIT and SETBRIGHTNESS -/

theorem decode_encode_setScanLimit (a : Dev) (limit : Byte) :
    decode (encode (.setScanLimit a limit)) = .ok (.setScanLimit a limit) := by
  simp [encode, decode, decodeHost, ifZero]

theorem decode_encode_setBrightness (a : Dev) (v : Byte) :
    decode (encode (.setBrightness a v)) = .ok (.setBrightness a v) := by
  simp [encode, decode, decodeHost, ifZero]

theorem hostWord_setScanLimit (a : Dev) (limit : Byte) :
    hostWord 0x2 a false 0 0 limit = 0x20000000#32 ||| a.setWidth 32 <<< 20 ||| limit.setWidth 32 := by
  simp [hostWord]

theorem hostWord_setBrightness (a : Dev) (v : Byte) :
    hostWord 0x3 a false 0 0 v = 0x30000000#32 ||| a.setWidth 32 <<< 20 ||| v.setWidth 32 := by
  simp [hostWord]

namespace Machine

/-! ### One command to a valid device -/

theorem execSetScanLimit_valid {s : State} {a : Dev} (limit : Byte) (h : valid s a.toNat) :
    ∃ t, execSetScanLimit a limit s = .next t ∧ Sends s t [(a.toNat, opScanLimit, limit)] ∧ t.buf = s.buf := by
  rw [execSetScanLimit, if_pos h]
  exact send_next s a.toNat opScanLimit limit h

theorem execSetBrightness_valid {s : State} {a : Dev} (v : Byte) (h : valid s a.toNat) :
    ∃ t, execSetBrightness a v s = .next t ∧ Sends s t [(a.toNat, opIntensity, v)] ∧ t.buf = s.buf := by
  rw [execSetBrightness, if_pos h]
  exact send_next s a.toNat opIntensity v h

/-- An operation that leaves the buffer alone leaves every buffer byte alone. -/
theorem sends_keepsBuffer {s : State} {r : Result} {xs : List Sent}
    (h : ∃ t, r = .next t ∧ Sends s t xs ∧ t.buf = s.buf) : ∃ t, r = .next t ∧ Sends s t xs ∧ KeepsBuffer s t := by
  obtain ⟨t, hnext, hsends, hbuf⟩ := h
  exact ⟨t, hnext, hsends, fun i => congrArg (Memory.read · i) hbuf⟩

/-- Settles O20: the words by the decoder's round trip; ON and OFF are SHUTDOWN with the flag fixed, and all three are
`setPower`, whose data byte is the inverse of the flag. -/
theorem shutdownSendsTheInverseOfItsFlag : Obligations.ShutdownSendsTheInverseOfItsFlag := by
  intro s a
  have power (f : Bool) (ha : valid s a.toNat) := sends_keepsBuffer (setPower_valid s a.toNat f ha)
  refine ⟨?wordFalse, ?wordTrue, fun ha => ⟨power true ha, power false ha, power false ha, power true ha⟩, fun ha => ?invalid⟩
  case wordFalse =>
    exact decode_host_eq_ok_iff (congrArg Code.host (hostWord_shutdown_false a)) (decode_encode_shutdown a false)
  case wordTrue =>
    exact decode_host_eq_ok_iff (congrArg Code.host (hostWord_shutdown_true a)) (decode_encode_shutdown a true)
  case invalid =>
    have idle (f : Bool) := setPower_invalid s a.toNat f ha
    exact ⟨idle true, idle false, idle false, idle true⟩

/-- Settles O21: the words by the decoder's round trip; past the address check each operation is SEND of its operand. -/
theorem scanLimitAndBrightnessPassThrough : Obligations.ScanLimitAndBrightnessPassThrough := by
  intro s a v
  refine ⟨?scanLimitWord, ?brightnessWord, fun ha => ⟨?scanLimit, ?brightness⟩, fun ha => ?invalid⟩
  case scanLimitWord =>
    exact decode_host_eq_ok_iff (congrArg Code.host (hostWord_setScanLimit a v)) (decode_encode_setScanLimit a v)
  case brightnessWord =>
    exact decode_host_eq_ok_iff (congrArg Code.host (hostWord_setBrightness a v)) (decode_encode_setBrightness a v)
  case scanLimit =>
    exact sends_keepsBuffer (execSetScanLimit_valid v ha)
  case brightness =>
    exact sends_keepsBuffer (execSetBrightness_valid v ha)
  case invalid => exact ⟨execSetScanLimit_invalid ha v, execSetBrightness_invalid ha v⟩

end Machine

end Sys2Proof
end

section
/-! PROOFS. The state-mutation family: the one word of CLEAR, SETLED, SETROW and SETCOLUMN (R80, R84), the row write that all
four are made of (R23), and the bit that SETLED and SETCOLUMN give a row byte (R150 to R156). -/

namespace Sys2Proof

/-! ### The words of the mutations -/

/-- The decoder reads back what the encoder wrote, instruction by instruction; ON and OFF have no word of their own (R91). -/
theorem decode_encode {i : Instr} (hi : i.wellFormed = true) : decode (encode i) = .ok i := by
  cases i with
  | on _ => cases hi
  | off _ => cases hi
  | _ => simp [encode, decode, decodeHost, decodeWire, ifZero]

/-- A machine instruction with a host word is decoded from that word and from no other. -/
theorem decode_host_iff {i : Instr} {x : HostWord} (hi : i.wellFormed = true) (hword : encode i = .host x) (w : HostWord) :
    decode (.host w) = .ok i ↔ w = x :=
  decode_host_eq_ok_iff hword (decode_encode hi) w

/-- The flag F in its place, bit 19 (R80). -/
theorem setWidth_ofBool_shiftLeft (f : Bool) :
    (BitVec.ofBool f).setWidth 32 <<< 19 = if f then 0x00080000#32 else 0 := by
  cases f <;> rfl

theorem hostWord_clear (a : Dev) : hostWord 0x4 a false 0 0 0 = 0x40000000#32 ||| a.setWidth 32 <<< 20 := by
  simp [hostWord]

theorem hostWord_setLed (a : Dev) (row col : Idx) (state : Bool) :
    hostWord 0x5 a state row col 0 =
      0x50000000#32 ||| a.setWidth 32 <<< 20 ||| (if state then 0x00080000#32 else 0) |||
        row.setWidth 32 <<< 16 ||| col.setWidth 32 <<< 8 := by
  rw [hostWord, setWidth_ofBool_shiftLeft]
  exact BitVec.or_zero

theorem hostWord_setRow (a : Dev) (row : Idx) (v : Byte) :
    hostWord 0x6 a false row 0 v =
      0x60000000#32 ||| a.setWidth 32 <<< 20 ||| row.setWidth 32 <<< 16 ||| v.setWidth 32 := by
  simp [hostWord]

theorem hostWord_setColumn (a : Dev) (col : Idx) (v : Byte) :
    hostWord 0x7 a false col 0 v =
      0x70000000#32 ||| a.setWidth 32 <<< 20 ||| col.setWidth 32 <<< 16 ||| v.setWidth 32 := by
  simp [hostWord]

namespace Machine

/-! ### The bit of a column -/

theorem getLsbD_columnMask (col : Idx) (k : Nat) : (columnMask col).getLsbD k = decide (k = 7 - col.toNat) := by
  have hcol := col.isLt
  have hbit : 0x80#8 = BitVec.twoPow 8 7 := rfl
  rw [columnMask, hbit, BitVec.getLsbD_ushiftRight, BitVec.getLsbD_twoPow, Bool.eq_iff_iff]
  simp only [Bool.and_eq_true, decide_eq_true_eq]
  omega

theorem ledByte_true (b : Byte) (col : Idx) : ledByte b col true = b ||| columnMask col := rfl

theorem ledByte_false (b : Byte) (col : Idx) : ledByte b col false = b &&& ~~~columnMask col := rfl

/-- SETLED gives the bit of its column the state, and keeps every other bit (R151). -/
theorem getLsbD_ledByte (b : Byte) (col : Idx) (state : Bool) {k : Nat} (hk : k < 8) :
    (ledByte b col state).getLsbD k = if k = 7 - col.toNat then state else b.getLsbD k := by
  cases state with
  | true =>
    rw [ledByte_true, BitVec.getLsbD_or, getLsbD_columnMask]
    split <;> simp [*]
  | false =>
    rw [ledByte_false, BitVec.getLsbD_and, BitVec.getLsbD_not, getLsbD_columnMask]
    split <;> simp [*]

/-- The last write of a column's bit decides it (R155). -/
theorem ledByte_ledByte (b : Byte) (col : Idx) (first second : Bool) :
    ledByte (ledByte b col first) col second = ledByte b col second := by
  refine BitVec.eq_of_getLsbD_eq fun k hk => ?_
  simp only [getLsbD_ledByte _ _ _ hk]
  split <;> rfl

/-- Writing a column's bit changes nothing exactly when the bit was so already. -/
theorem ledByte_eq_self_iff (b : Byte) (col : Idx) (state : Bool) :
    ledByte b col state = b ↔ b.getLsbD (7 - col.toNat) = state := by
  constructor
  · intro h
    have hbit := getLsbD_ledByte b col state (k := 7 - col.toNat) (by omega)
    rwa [h, if_pos rfl] at hbit
  · intro h
    refine BitVec.eq_of_getLsbD_eq fun k hk => ?_
    rw [getLsbD_ledByte b col state hk]
    split
    next hcol => rw [hcol, h]
    next => rfl

/-! ### Row writes -/

/-- A row write stores the byte it sends (R23). -/
theorem putRow_storesByte {s : State} {a : Nat} (r : Idx) (v : Byte) (h : valid s a) :
    ∃ t, putRow a r v s = .next t ∧ Sends s t [(a, opDigit r, v)] ∧ StoresByte s t a r v := by
  obtain ⟨t, hnext, hsends, hbuf⟩ := putRow_next s a r v h
  exact ⟨t, hnext, hsends, fun i => by rw [hbuf, Memory.read_write]⟩

theorem StoresByte.read {s t : State} {a : Nat} {r : Idx} {v : Byte} (h : StoresByte s t a r v) :
    Memory.read t.buf (bufIndex a r) = some v :=
  (h _).trans (if_pos rfl)

/-- A device stays valid, since no command changes N (R20). -/
theorem Sends.valid {s t : State} {xs : List Sent} {a : Nat} (h : Sends s t xs) (ha : valid s a) : valid t a := by
  obtain ⟨-, -, -, -, hcfg, -⟩ := h
  rwa [Machine.valid, hcfg]

/-- SETLED of a written row of a valid device (R151). -/
theorem writeLed_storesByte {s : State} {a : Nat} {r : Idx} {b : Byte} (col : Idx) (state : Bool) (h : valid s a)
    (hb : Memory.read s.buf (bufIndex a r) = some b) :
    ∃ t, writeLed a r col state s = .next t ∧ Sends s t [(a, opDigit r, ledByte b col state)] ∧
      StoresByte s t a r (ledByte b col state) := by
  rw [writeLed_valid s a r col state b h hb]
  exact putRow_storesByte r _ h

/-! ### SETLED -/

/-- Settles O24: the byte stored and sent is the row byte with the column's bit given the state. -/
theorem setLedChangesOneBit : Obligations.SetLedChangesOneBit := by
  refine fun s a row col state => ⟨?word, fun b ha hb => ?valid, writeLed_invalid s a.toNat row col state⟩
  case word => exact decode_host_iff rfl (congrArg Code.host (hostWord_setLed a row col state))
  case valid =>
    obtain ⟨t, hnext, hsends, hstores⟩ := writeLed_storesByte col state ha hb
    exact ⟨t, ledByte b col state, hnext, fun k hk => getLsbD_ledByte b col state hk, hsends, hstores⟩

/-- Settles O29: the second SETLED reads the byte the first one stored, and of two writes of one bit the last one counts. -/
theorem setLedRoundTrip : Obligations.SetLedRoundTrip := by
  intro s a row col x ha hx
  obtain ⟨t, hon, hsendsOn, hstoresOn⟩ := writeLed_storesByte col true ha hx
  obtain ⟨u, hoff, hsendsOff, hstoresOff⟩ := writeLed_storesByte col false (hsendsOn.valid ha) hstoresOn.read
  rw [ledByte_ledByte] at hsendsOff hstoresOff
  exact ⟨t, u, hon, hoff, hsendsOn.trans hsendsOff, hstoresOff.read, ledByte_eq_self_iff x col false⟩

/-! ### SETCOLUMN -/

/-- SETCOLUMN of a valid device with every row written: the SETLED of each row, no row reading what another stored (R153). -/
theorem execSetColumn_valid {s : State} {a : Dev} {old : Idx → Byte} (col : Idx) (v : Byte) (h : valid s a.toNat)
    (hold : ∀ r, Memory.read s.buf (bufIndex a.toNat r) = some (old r)) :
    ∃ t, execSetColumn a col v s = .next t ∧
      Sends s t (rows.map fun r => (a.toNat, opDigit r, ledByte (old r) col (columnBit v r))) ∧
      (∀ r, Memory.read t.buf (bufIndex a.toNat r) = some (ledByte (old r) col (columnBit v r))) ∧
      (∀ i, (∀ r, i ≠ bufIndex a.toNat r) → Memory.read t.buf i = Memory.read s.buf i) := by
  obtain ⟨t, hnext, hsends, hrows, hothers, -⟩ :=
    eachRow_writes a.toNat (fun r => writeLed a.toNat r col (columnBit v r))
      (fun r _ => ledByte (old r) col (columnBit v r)) s rows h rows_nodup
      (fun r _ u hu hsame => writeLed_valid u a.toNat r col _ (old r) hu (hsame.trans (hold r)))
  exact ⟨t, (if_pos h).trans hnext, hsends, fun r => hrows r (mem_rows r), fun i hi => hothers i fun r _ => hi r⟩

/-- Settles O26: each row's new byte is its old one with the column's bit taken from `v`. -/
theorem setColumnWritesOneBitOfEveryRow : Obligations.SetColumnWritesOneBitOfEveryRow := by
  refine fun s a col v => ⟨?word, fun old ha hold => ?valid, fun ha => execSetColumn_invalid ha col v⟩
  case word => exact decode_host_iff rfl (congrArg Code.host (hostWord_setColumn a col v))
  case valid =>
    obtain ⟨t, hnext, hsends, hrows, hothers⟩ := execSetColumn_valid col v ha hold
    exact ⟨t, fun r => ledByte (old r) col (columnBit v r), hnext,
      fun r k hk => getLsbD_ledByte (old r) col (columnBit v r) hk, hsends, hrows, hothers⟩

/-! ### CLEAR -/

theorem execClear_valid {s : State} {a : Dev} (h : valid s a.toNat) : execClear a s = clearRows a.toNat s := if_pos h

/-- Without the guard an invalid address stops CLEAR before its first write (R150). -/
theorem execClear_invalid_unguarded {s : State} {a : Dev} (h : ¬valid s a.toNat) (hguard : s.cfg.clearGuard = false) :
    execClear a s = .fault .clearOutOfRange := by
  rw [execClear, if_neg h, hguard]
  rfl

/-- Settles O23: the clearing loop of a valid device, and the two values of the guard for an invalid one. -/
theorem clearBlanksEveryRow : Obligations.ClearBlanksEveryRow := by
  refine fun s a => ⟨?word, fun ha => ?valid, execClear_invalid_guarded, execClear_invalid_unguarded⟩
  case word => exact decode_host_iff rfl (congrArg Code.host (hostWord_clear a))
  case valid =>
    obtain ⟨t, hnext, hsends, hzero, hothers, -⟩ := clearRows_next s a.toNat ha
    exact ⟨t, (execClear_valid ha).trans hnext, hsends, hzero, hothers⟩

/-! ### SETROW -/

/-- Settles O25: past the address check SETROW is the row write itself. -/
theorem setRowStoresAndSendsTheByte : Obligations.SetRowStoresAndSendsTheByte := by
  refine fun s a row v => ⟨?word, fun ha => ?valid, writeRow_invalid s a.toNat row v⟩
  case word => exact decode_host_iff rfl (congrArg Code.host (hostWord_setRow a row v))
  case valid =>
    obtain ⟨t, hnext, hstored⟩ := putRow_storesByte row v ha
    exact ⟨t, (writeRow_valid s a.toNat row v ha).trans hnext, hstored⟩

end Machine

end Sys2Proof
end

section
/-! PROOFS. The character family: SETCHAR, which writes now in 7-segment mode and defers a batch in matrix mode (R180 to R183),
and the runner's step, which takes one entry of a batch and does its SETROW (R186). -/

namespace Sys2Proof

theorem hostWord_setChar (a : Dev) (digit : Idx) (v : Byte) (dp : Bool) :
    hostWord 0x9 a dp digit 0 v =
      0x90000000#32 ||| a.setWidth 32 <<< 20 ||| (if dp then 0x00080000#32 else 0) |||
        digit.setWidth 32 <<< 16 ||| v.setWidth 32 := by
  rw [hostWord, setWidth_ofBool_shiftLeft]
  simp

namespace Machine

/-! ### The glyph and its batch -/

theorem glyph_of_mem {v : Byte} (c : Cfg) (h : 0x21 ≤ v.toNat ∧ v.toNat ≤ 0x7E) :
    glyph c v = some (c.matrixFont[v.toNat - 0x21]'(by omega)) := dif_pos h

theorem glyph_eq_none {v : Byte} (c : Cfg) (h : v.toNat ≤ 0x20 ∨ 0x7F ≤ v.toNat) : glyph c v = none :=
  dif_neg (by omega)

@[simp] theorem rows_getElem? (r : Idx) : rows[r.toNat]? = some r := by revert r; decide

@[simp] theorem glyphBatch_length (a : Dev) (g : Vector Byte 8) : (glyphBatch a g).length = 8 := rfl

/-- Place `r` of the batch of a glyph holds its row `r` (R183). -/
theorem glyphBatch_getElem? (a : Dev) (g : Vector Byte 8) (r : Idx) :
    (glyphBatch a g)[r.toNat]? = some ⟨a, r, glyphRow g r⟩ := by
  rw [glyphBatch, List.getElem?_map, rows_getElem?, Option.map_some]

/-! ### SETCHAR -/

/-- SETDIGIT of a valid device stores the byte it sends, the font byte with its point (R154). -/
theorem writeDigit_storesByte {s : State} {a : Nat} (digit : Idx) (v : Byte) (dp : Bool) (h : valid s a) :
    ∃ t, writeDigit a digit v dp s = .next t ∧ Sends s t [(a, opDigit digit, digitByte s.cfg v dp)] ∧
      StoresByte s t a digit (digitByte s.cfg v dp) := by
  rw [writeDigit_valid s a digit v dp h]
  exact putRow_storesByte digit _ h

section setChar
variable {s : State} {a : Dev} {v : Byte} (digit : Idx) (dp : Bool)

/-- In 7-segment mode SETCHAR is SETDIGIT, whose own address check agrees (R180). -/
theorem execSetChar_segment (hmode : s.cfg.isMatrix = false) :
    execSetChar a digit v dp s = execSetDigit a digit v dp s := by
  by_cases h : valid s a.toNat
  · simp [execSetChar, execSetDigit, h, hmode]
  · exact (execSetChar_invalid h digit v dp).trans (writeDigit_invalid s a.toNat digit v dp h).symm

theorem execSetChar_glyph {g : Vector Byte 8} (h : valid s a.toNat) (hmode : s.cfg.isMatrix = true)
    (hglyph : glyph s.cfg v = some g) : execSetChar a digit v dp s = .next (defer (glyphBatch a g) s) := by
  simp [execSetChar, h, hmode, hglyph]

/-- A code without a glyph does nothing in matrix mode, whatever the address (R182). -/
theorem execSetChar_noGlyph (hmode : s.cfg.isMatrix = true) (hglyph : glyph s.cfg v = none) :
    execSetChar a digit v dp s = .next s := by
  simp [execSetChar, hmode, hglyph]

end setChar

/-- Settles O31: the address check, then the mode, then whether the code has a glyph. -/
theorem setCharWritesNowOrDefers : Obligations.SetCharWritesNowOrDefers := by
  refine fun s a digit v dp => ⟨?word, fun ha => execSetChar_invalid ha digit v dp, fun ha hmode => ?segment,
    fun ha hmode hcode => ?glyph, fun hmode hcode => execSetChar_noGlyph digit dp hmode (glyph_eq_none s.cfg hcode)⟩
  case word => exact decode_host_iff rfl (congrArg Code.host (hostWord_setChar a digit v dp))
  case segment =>
    obtain ⟨t, hnext, hstored⟩ := writeDigit_storesByte digit v dp ha
    exact ⟨t, (execSetChar_segment digit dp hmode).trans hnext, hnext, hstored⟩
  case glyph =>
    have hglyph := glyph_of_mem s.cfg hcode
    exact ⟨glyphBatch a _, execSetChar_glyph digit dp ha hmode hglyph, glyphBatch_length a _, glyphBatch_getElem? a _⟩

/-! ### The runner's step -/

theorem dqAfter_eq_ite (dq : List Batch) (k : Nat) (rest : Batch) :
    dqAfter dq k rest = if rest = [] then dq.eraseIdx k else dq.set k rest := by
  cases rest with
  | nil => rfl
  | cons e es => simp [dqAfter]

/-- On the runner's turn an initialized block runs one row write of the batch (R185). -/
theorem step_runner {s : State} {k : Nat} {ts : List Turn} (hlegal : s.cfg.legal = true) (hinit : s.initDone = true)
    (hturns : s.turns = .runner k :: ts) : step s = deferredRowWrite k { s with turns := ts } := by
  simp [step, takeTurn, hlegal, hinit, hturns]

/-- SETROW of a valid device stores the byte it sends (R152). -/
theorem writeRow_storesByte {s : State} {a : Nat} (r : Idx) (v : Byte) (h : valid s a) :
    ∃ t, writeRow a r v s = .next t ∧ Sends s t [(a, opDigit r, v)] ∧ StoresByte s t a r v := by
  rw [writeRow_valid s a r v h]
  exact putRow_storesByte r v h

/-- The runner stores and sends the first entry of the batch, from the state whose DQ has lost it (R186). -/
theorem deferredRowWrite_storesByte {s : State} {k : Nat} {e : Entry} {rest : Batch} (hk : s.dq[k]? = some (e :: rest))
    (ha : valid s e.a.toNat) :
    ∃ t, deferredRowWrite k s = .next t ∧
      Sends { s with dq := dqAfter s.dq k rest } t [(e.a.toNat, opDigit e.r, e.v)] ∧
      StoresByte s t e.a.toNat e.r e.v := by
  rw [deferredRowWrite_serves k s e rest hk]
  exact writeRow_storesByte (s := { s with dq := dqAfter s.dq k rest }) e.r e.v ha

/-- Settles O32: the step is the runner's, and an entry of a valid device runs as its row write. -/
theorem runnerStepServesTheFirstEntry : Obligations.RunnerStepServesTheFirstEntry := by
  intro s k e rest ts hlegal hinit hturns hk ha
  rw [step_runner hlegal hinit hturns, ← dqAfter_eq_ite]
  exact deferredRowWrite_storesByte (s := { s with turns := ts }) hk ha

end Machine

end Sys2Proof
end

section
/-! PROOFS. Reset and initialization: the step that runs the whole initialization sequence (R232, R233) and the state it
leaves (R234). -/

namespace Sys2Proof.Machine

/-- Until INIT_DONE = 1 the step is the initialization sequence, whichever turn other than a reset is listed (R33, R233). -/
theorem step_init {s : State} (hlegal : s.cfg.legal = true) (hinit : s.initDone = false)
    (hturns : ∀ ts, s.turns ≠ .reset :: ts) : step s = initSequence s := by
  rw [step, takeTurn, if_pos hlegal, hinit]
  split
  next ts hreset => exact absurd hreset (hturns ts)
  next => rfl
  -- the remaining branches ask for INIT_DONE = 1
  all_goals contradiction

/-! ### The frames -/

/-- 12 frames for each device (R232). -/
theorem flatMap_initCommands_length (as : List Nat) : (as.flatMap initCommands).length = 12 * as.length := by
  simp [List.length_flatMap, initCommands, Nat.mul_comm]

/-- Settles O38: the step is the initialization sequence, and its commands are those of every device in ascending order. -/
theorem initializationEmitsItsTwelveFramesPerDevice : Obligations.InitializationEmitsItsTwelveFramesPerDevice := by
  intro s hlegal hinit hturns
  obtain ⟨u, hnext, ⟨hframes, -, -, -, hcfg, hdq, -, hcommands, hlisted⟩, hzero, -⟩ := initSequence_next s
  refine ⟨_, (step_init hlegal hinit hturns).trans hnext, rfl, hframes, ?count, hzero, hcfg, hdq, hcommands, hlisted⟩
  case count =>
    change u.frames.length = _
    rw [hframes, List.length_append, List.length_map, flatMap_initCommands_length, List.length_range]

/-! ### The ports -/

/-- The last frame, SHUTDOWN with data 0, leaves every port at its reset level, whatever it was before (R31, R234). -/
theorem initDevice_ports {a : Nat} {s t : State} (h : initDevice a s = .next t) : t.ports = Ports.atReset := by
  simp only [initDevice, andThen_eq_next] at h
  obtain ⟨-, -, -, -, -, -, u, -, hlast⟩ := h
  obtain ⟨ha, rfl⟩ := send_eq_next_iff.1 hlast
  rw [emit_frameBytes_ports ha]
  cases a <;> rfl

theorem initDevices_ports {as : List Nat} {s t : State} (hne : as ≠ []) (h : initDevices as s = .next t) :
    t.ports = Ports.atReset := by
  induction as generalizing s with
  | nil => exact absurd rfl hne
  | cons a as ih =>
    obtain ⟨u, hfirst, hrest⟩ := (andThen_eq_next _ _ _).1 h
    cases as with
    | nil => exact Host.Outcome.next.inj hrest ▸ initDevice_ports hfirst
    | cons b bs => exact ih (List.cons_ne_nil b bs) hrest

theorem initSequence_ports {s t : State} (hn : 0 < s.cfg.n) (h : initSequence s = .next t) :
    t.ports = Ports.atReset := by
  obtain ⟨u, hdevices, hdone⟩ := (andThen_eq_next _ _ _).1 h
  have hports : u.ports = Ports.atReset := initDevices_ports (by simpa using hn.ne') hdevices
  exact Host.Outcome.next.inj hdone ▸ hports

/-! ### The chips -/

/-- What the initialization makes of a chip: INTENSITY alone is not sent (R234). -/
def Chip.initialized (c : Chip) : Chip :=
  { digits := Vector.replicate 8 0x00, decode := 0x00, intensity := c.intensity, scanLimit := 0x07, shutdown := 0x00,
    test := 0x00 }

/-- A device's own initialization commands set every register but INTENSITY. -/
theorem chipAfter_initCommands_same (a : Nat) (c : Chip) : chipAfter a (initCommands a) c = c.initialized := by
  have hdigits : ((((((((c.digits.set 0 0x00).set 1 0x00).set 2 0x00).set 3 0x00).set 4 0x00).set 5 0x00).set 6 0x00).set 7
      0x00) = Vector.replicate 8 0x00#8 := by
    ext i hi
    interval_cases i <;> simp
  simpa [chipAfter, initCommands, Chip.latch, regOfOpcode, Chip.put, Chip.initialized] using hdigits

/-- The initialization commands of another device leave a chip alone (R125). -/
theorem chipAfter_initCommands_ne {a b : Nat} (h : b ≠ a) (c : Chip) : chipAfter a (initCommands b) c = c := by
  simp [chipAfter, initCommands, h]

/-- Initializing a chip once more changes nothing, so it counts only whether its device is listed. -/
theorem chipAfter_flatMap_initCommands (a : Nat) (as : List Nat) (c : Chip) :
    chipAfter a (as.flatMap initCommands) c = if a ∈ as then c.initialized else c := by
  induction as generalizing c with
  | nil => rfl
  | cons b as ih =>
    rw [List.flatMap_cons, chipAfter_append, ih]
    by_cases hb : b = a
    · subst hb
      simp [chipAfter_initCommands_same, Chip.initialized]
    · simp [chipAfter_initCommands_ne hb, Ne.symm hb]

/-- Settles O39: the buffer and the chips by the commands of `initSequence_next`, the ports by the last frame. -/
theorem stateAfterInitialization : Obligations.StateAfterInitialization := by
  intro s hlegal hinit hturns hempty hlength
  obtain ⟨hn, -, -⟩ := (Cfg.legal_iff s.cfg).1 hlegal
  obtain ⟨u, hnext, ⟨-, hreached, -, -, -, hdq, -⟩, hzero, hacts⟩ := initSequence_next s
  have hchips : u.chips.length = s.chips.length := hacts.keeps.2
  refine ⟨_, (step_init hlegal hinit hturns).trans hnext, rfl, hdq.trans hempty, hchips.trans hlength,
    fun i hi => ?buffer, initSequence_ports hn hnext, fun a c c' hc hc' => ?chip⟩
  case buffer =>
    obtain ⟨a, r, ha, rfl⟩ := bufIndex_surj hi
    exact hzero a ha r
  case chip =>
    have ha : a < s.cfg.n := hlength ▸ (List.getElem?_eq_some_iff.1 hc).1
    have hinitialized : u.chips[a]? = some c.initialized := by
      rw [hreached a, hc, Option.map_some, chipAfter_flatMap_initCommands, if_pos (List.mem_range.2 ha)]
    exact Option.some.inj (hc'.symm.trans hinitialized)

end Sys2Proof.Machine
end

section
/-! PROOFS. The two encodings as a whole: decoder and encoder are inverse to each other (R80, R84, R86), and the words of a
host operation are those of its match and mask (R84). -/

namespace Sys2Proof

/-! ### Every accepted code is the code of its instruction -/

/-- A wire word is assembled from its two bytes (R86). -/
@[simp] theorem wireWord_bytes (w : WireWord) : wireWord (wireOp w) (wireData w) = w := by
  apply BitVec.eq_of_toNat_eq
  rw [wireWord_toNat, toNat_eq_wireData_add_wireOp w]

/-- No bit of an accepted wire word is ignored: row by row of R86, the opcode byte is the row's and the data byte is the
operand. -/
theorem encode_of_decode_wire {a : Dev} {w : WireWord} {i : Instr} (h : decode (.wire a w) = .ok i) :
    encode i = .wire a w := by
  have hbytes (op : Byte) (hop : (wireOp w).toNat = op.toNat) : wireWord op (wireData w) = w := by
    rw [← BitVec.eq_of_toNat_eq hop, wireWord_bytes]
  rw [decode, decodeWire] at h
  split at h
  case h_15 => cases h
  all_goals
    cases h
    exact congrArg (Code.wire a) (hbytes _ ‹_›)

/-- No host word decodes to ON or OFF (R84, R91). -/
theorem wellFormed_of_decode_host {w : HostWord} {i : Instr} (h : decode (.host w) = .ok i) : i.wellFormed = true := by
  rw [decode, decodeHost] at h
  split at h
  case h_10 => cases h
  all_goals
    obtain ⟨-, rfl⟩ := ifZero_eq_ok_iff.1 h
    rfl

/-- A wire word decodes to a wire command. -/
theorem wellFormed_of_decode_wire {a : Dev} {w : WireWord} {i : Instr} (h : decode (.wire a w) = .ok i) :
    i.wellFormed = true := by
  rw [decode, decodeWire] at h
  split at h <;> cases h <;> rfl

/-- Settles O1: the decoder's round trip. -/
theorem decodeOfEncodeIsTheInstruction : Obligations.DecodeOfEncodeIsTheInstruction :=
  fun _ hi => decode_encode hi

/-- Settles O2: the encoder's round trip, for host words and for wire words. -/
theorem encodeOfDecodeIsTheWord : Obligations.EncodeOfDecodeIsTheWord := by
  intro c i h
  cases c with
  | host w => exact ⟨encode_of_decode_host h, wellFormed_of_decode_host h⟩
  | wire a w => exact ⟨encode_of_decode_wire h, wellFormed_of_decode_wire h⟩

/-! ### Match and mask -/

/-- The operation number of an instruction, its row of R84; 0 for one that no host word decodes to. -/
def Instr.opNumber : Instr → Nat
  | .shutdown _ _ => 0x1
  | .setScanLimit _ _ => 0x2
  | .setBrightness _ _ => 0x3
  | .clear _ => 0x4
  | .setLed _ _ _ _ => 0x5
  | .setRow _ _ _ => 0x6
  | .setColumn _ _ _ => 0x7
  | .setDigit _ _ _ _ => 0x8
  | .setChar _ _ _ _ => 0x9
  | _ => 0

/-- A decoded host word holds the operation number of its instruction in OP. -/
theorem opNumber_of_decode_host {w : HostWord} {i : Instr} (h : decode (.host w) = .ok i) :
    i.opNumber = (fieldOp w).toNat := by
  rw [decode, decodeHost] at h
  split at h
  case h_10 => cases h
  all_goals
    rename_i hop
    obtain ⟨-, rfl⟩ := ifZero_eq_ok_iff.1 h
    exact hop.symm

/-- The decoder accepts exactly the words that are not reserved: those whose row of R84 finds its zero bits zero. -/
theorem exists_decode_host_eq_ok_iff (w : HostWord) :
    (∃ i, decode (.host w) = .ok i) ↔ ∃ m, Machine.zeroBits (fieldOp w).toNat = some m ∧ w &&& m = 0#32 := by
  have hok : (∃ i, decode (.host w) = .ok i) ↔ ¬∃ r, decode (.host w) = .error r := by
    cases decode (.host w) <;> simp
  rw [hok, ← Machine.reservedWord_iff_decode_error, Machine.ReservedWord, ← fieldOp_toNat]
  push Not
  rfl

theorem and_opMask (w : HostWord) : w &&& 0xF0000000#32 = (fieldOp w).setWidth 32 <<< 28 :=
  (setWidth_extractLsb'_shiftLeft w 28 4).symm

theorem fieldOp_and (w m : HostWord) : fieldOp (w &&& m) = fieldOp w &&& fieldOp m := BitVec.extractLsb'_and ..

theorem or_and_self_right (x m : HostWord) : (x ||| m) &&& m = m := by
  ext i hi
  simpa using Or.inr

/-- Matching OP and zero bits outside OP is matching each. -/
theorem and_opMask_or_eq_iff {m : HostWord} (hm : 0xF0000000#32 &&& m = 0#32) (w : HostWord) (op : BitVec 4) :
    w &&& (0xF0000000#32 ||| m) = op.setWidth 32 <<< 28 ↔ fieldOp w = op ∧ w &&& m = 0#32 := by
  constructor
  · intro h
    have hop : fieldOp (op.setWidth 32 <<< 28) = op := by simpa [hostWord] using fieldOp_hostWord op 0 false 0 0 0
    have hmask : (op.setWidth 32 <<< 28 : HostWord) = op.setWidth 32 <<< 28 &&& 0xF0000000#32 := by rw [and_opMask, hop]
    constructor
    · have hones : fieldOp (0xF0000000#32 ||| m) = BitVec.allOnes 4 := by
        have hzero : m.extractLsb' 28 4 = 0#4 := (extractLsb'_eq_zero_iff m 28 4).2 ((BitVec.and_comm ..).trans hm)
        rw [fieldOp, BitVec.extractLsb'_or, hzero, BitVec.or_zero]
        rfl
      calc fieldOp w
        _ = fieldOp (w &&& (0xF0000000#32 ||| m)) := by
          rw [fieldOp_and, hones, BitVec.and_allOnes]
        _ = op := by rw [h, hop]
    · calc w &&& m
        _ = w &&& (0xF0000000#32 ||| m) &&& m := by rw [BitVec.and_assoc, or_and_self_right]
        _ = 0#32 := by rw [h, hmask, BitVec.and_assoc, hm, BitVec.and_zero]
  · rintro ⟨rfl, hzero⟩
    rw [BitVec.and_or_distrib_left, and_opMask, hzero, BitVec.or_zero]

/-- One row of R84 as a match and a mask: the words of its operation are those with its OP and its zero bits zero. -/
theorem exists_decode_host_iff_mask {op : BitVec 4} {m : HostWord} (hrow : Machine.zeroBits op.toNat = some m)
    (hm : 0xF0000000#32 &&& m = 0#32) (w : HostWord) :
    (∃ i, decode (.host w) = .ok i ∧ i.opNumber = op.toNat) ↔
      w &&& (0xF0000000#32 ||| m) = op.setWidth 32 <<< 28 := by
  rw [and_opMask_or_eq_iff hm]
  constructor
  · rintro ⟨i, hi, hop⟩
    have hfield : fieldOp w = op := BitVec.eq_of_toNat_eq ((opNumber_of_decode_host hi).symm.trans hop)
    obtain ⟨k, hk, hzero⟩ := (exists_decode_host_eq_ok_iff w).1 ⟨i, hi⟩
    rw [hfield, hrow, Option.some_inj] at hk
    exact ⟨hfield, hk ▸ hzero⟩
  · rintro ⟨rfl, hzero⟩
    obtain ⟨i, hi⟩ := (exists_decode_host_eq_ok_iff w).2 ⟨m, hrow, hzero⟩
    exact ⟨i, hi, opNumber_of_decode_host hi⟩

/-! ### The rows of R84 -/

section opNumber
variable (i : Instr)
theorem opNumber_shutdown_iff : i.opNumber = 1 ↔ ∃ a s, i = .shutdown a s := by
  cases i <;> simp [Instr.opNumber]
theorem opNumber_setScanLimit_iff : i.opNumber = 2 ↔ ∃ a v, i = .setScanLimit a v := by
  cases i <;> simp [Instr.opNumber]
theorem opNumber_setBrightness_iff : i.opNumber = 3 ↔ ∃ a v, i = .setBrightness a v := by
  cases i <;> simp [Instr.opNumber]
theorem opNumber_clear_iff : i.opNumber = 4 ↔ ∃ a, i = .clear a := by
  cases i <;> simp [Instr.opNumber]
theorem opNumber_setLed_iff : i.opNumber = 5 ↔ ∃ a r c s, i = .setLed a r c s := by
  cases i <;> simp [Instr.opNumber]
theorem opNumber_setRow_iff : i.opNumber = 6 ↔ ∃ a r v, i = .setRow a r v := by
  cases i <;> simp [Instr.opNumber]
theorem opNumber_setColumn_iff : i.opNumber = 7 ↔ ∃ a c v, i = .setColumn a c v := by
  cases i <;> simp [Instr.opNumber]
theorem opNumber_setDigit_iff : i.opNumber = 8 ↔ ∃ a d v p, i = .setDigit a d v p := by
  cases i <;> simp [Instr.opNumber]
theorem opNumber_setChar_iff : i.opNumber = 9 ↔ ∃ a d v p, i = .setChar a d v p := by
  cases i <;> simp [Instr.opNumber]
end opNumber

/-- Settles O3: an accepted word with the row's operation number is an instruction of the row. -/
theorem hostWordsDecodeByMatchAndMask : Obligations.HostWordsDecodeByMatchAndMask := by
  intro w
  refine ⟨?shutdown, ?setScanLimit, ?setBrightness, ?clear, ?setLed, ?setRow, ?setColumn, ?setDigit, ?setChar⟩
  case shutdown => simpa [opNumber_shutdown_iff, -Bool.exists_bool] using exists_decode_host_iff_mask (op := 0x1) rfl rfl w
  case setScanLimit => simpa [opNumber_setScanLimit_iff] using exists_decode_host_iff_mask (op := 0x2) rfl rfl w
  case setBrightness => simpa [opNumber_setBrightness_iff] using exists_decode_host_iff_mask (op := 0x3) rfl rfl w
  case clear => simpa [opNumber_clear_iff] using exists_decode_host_iff_mask (op := 0x4) rfl rfl w
  case setLed => simpa [opNumber_setLed_iff, -Bool.exists_bool] using exists_decode_host_iff_mask (op := 0x5) rfl rfl w
  case setRow => simpa [opNumber_setRow_iff] using exists_decode_host_iff_mask (op := 0x6) rfl rfl w
  case setColumn => simpa [opNumber_setColumn_iff] using exists_decode_host_iff_mask (op := 0x7) rfl rfl w
  case setDigit => simpa [opNumber_setDigit_iff, -Bool.exists_bool] using exists_decode_host_iff_mask (op := 0x8) rfl rfl w
  case setChar => simpa [opNumber_setChar_iff, -Bool.exists_bool] using exists_decode_host_iff_mask (op := 0x9) rfl rfl w

/-- Settles O6: each word is run through the decoder. -/
theorem writtenOutWordsDecode : Obligations.WrittenOutWordsDecode := by
  unfold Obligations.WrittenOutWordsDecode
  decide

end Sys2Proof
end

section
/-! PROOFS. The serial link: what an observer of the pins samples during a frame, bit by bit (R57, R102 to R105), and what a
chain of shift registers makes of it (R106). -/

namespace Sys2Proof.Machine

/-- Settles O13: the last byte shifted decides DIN. -/
theorem portsAfterAFrame : Obligations.PortsAfterAFrame :=
  fun p b f => frameEvents_cons_ports b f p

/-! ### The events of CS and CLK -/

theorem port_ne_cs_of_mem_byteEvents {b : Byte} {e : PinEvent} (h : e ∈ byteEvents b) : e.port ≠ .cs := by
  obtain ⟨x, -, hx⟩ := List.mem_flatMap.1 h
  simp only [bitEvents, List.mem_cons, List.not_mem_nil, or_false] at hx
  rcases hx with rfl | rfl | rfl <;> simp

/-- No byte moves CS. -/
theorem filter_cs_bytesEvents (bs : List Byte) : (bs.flatMap byteEvents).filter (fun e => e.port = .cs) = [] := by
  refine List.filter_eq_nil_iff.2 fun e he => ?_
  obtain ⟨b, -, hb⟩ := List.mem_flatMap.1 he
  simpa using port_ne_cs_of_mem_byteEvents hb

/-- Each byte raises and lowers CLK once a bit (R104, R105). -/
theorem length_filter_bytesEvents (level : Level) (bs : List Byte) :
    ((bs.flatMap byteEvents).filter fun e => e = ⟨.clk, level⟩).length = 8 * bs.length := by
  induction bs with
  | nil => rfl
  | cons b bs ih =>
    have hbyte : ((byteEvents b).filter fun e => e = ⟨.clk, level⟩).length = 8 := by
      cases level <;> simp [byteEvents, msbFirst, bitEvents]
    rw [List.flatMap_cons, List.filter_append, List.length_append, hbyte, ih, List.length_cons]
    omega

theorem length_filter_frameEvents (level : Level) (f : List Byte) :
    ((frameEvents f).filter fun e => e = ⟨.clk, level⟩).length = 8 * f.length := by
  simp [frameEvents, length_filter_bytesEvents]

/-- Settles O12: the two CS events stand at the ends, and each of the 2N bytes pulses CLK eight times. -/
theorem chipSelectFramesTheClockPulses : Obligations.ChipSelectFramesTheClockPulses := by
  intro n a op d
  have hpulses (level : Level) :
      ((frameEvents (frameBytes n a op d)).filter fun e => e = ⟨.clk, level⟩).length = 16 * n := by
    rw [length_filter_frameEvents, frameBytes_length]
    omega
  refine ⟨rfl, ?last, ?select, hpulses .high, hpulses .low⟩
  case last => rw [frameEvents, ← List.cons_append, List.getLast?_concat]
  case select => simp [frameEvents, filter_cs_bytesEvents]

/-! ### What is sampled -/

/-- While CS and CLK are LOW, one shifted bit is sampled once (R105). -/
theorem sampled_bitEvents (x : Bool) {p : Ports} (hcs : p.cs = .low) (hclk : p.clk = .low) (es : List PinEvent) :
    sampled p (bitEvents x ++ es) = x :: sampled { p with din := bitLevel x } es := by
  cases x <;> simp [bitEvents, bitLevel, sampled, Ports.drive, hcs, hclk]

theorem sampled_bits (xs : List Bool) {p : Ports} (hcs : p.cs = .low) (hclk : p.clk = .low) (es : List PinEvent) :
    ∃ l, sampled p (xs.flatMap bitEvents ++ es) = xs ++ sampled { p with din := l } es := by
  induction xs generalizing p with
  | nil => exact ⟨p.din, rfl⟩
  | cons x xs ih =>
    obtain ⟨l, hl⟩ := ih (p := { p with din := bitLevel x }) hcs hclk
    exact ⟨l, by rw [List.flatMap_cons, List.append_assoc, sampled_bitEvents x hcs hclk, hl, List.cons_append]⟩

/-- What is sampled during a frame: its bytes from the highest index down, each most significant bit first (R102, R104). -/
theorem sampled_frameEvents {p : Ports} (hclk : p.clk = .low) (f : List Byte) :
    sampled p (frameEvents f) = f.reverse.flatMap msbFirst := by
  obtain ⟨l, hl⟩ := sampled_bits (f.reverse.flatMap msbFirst) (p := { p with cs := .low }) rfl hclk [⟨.cs, .high⟩]
  have hbits : f.reverse.flatMap byteEvents = (f.reverse.flatMap msbFirst).flatMap bitEvents := by
    rw [List.flatMap_assoc]
    rfl
  simpa [frameEvents, sampled, Ports.drive, hbits] using hl

/-! ### The frame's number, bit by bit -/

theorem testBit_frameValue_cons (b : Byte) (f : List Byte) (i : Nat) :
    (frameValue (b :: f)).testBit i = if i < 8 then b.getLsbD i else (frameValue f).testBit (i - 8) := by
  rw [frameValue, Nat.add_comm, show 256 = 2 ^ 8 from rfl, Nat.testBit_two_pow_mul_add _ b.isLt]
  rfl

theorem msbFirst_eq_map (b : Byte) : msbFirst b = (List.range 8).map fun i => b.getLsbD (7 - i) := rfl

/-- The bits of the frame's bytes, highest index first, are those of its number (R57, R101). -/
theorem bits_eq_testBit_frameValue (f : List Byte) :
    f.reverse.flatMap msbFirst =
      (List.range (8 * f.length)).map fun i => (frameValue f).testBit (8 * f.length - 1 - i) := by
  induction f with
  | nil => rfl
  | cons b f ih =>
    rw [List.reverse_cons, List.flatMap_append, ih, List.flatMap_singleton, List.length_cons, Nat.mul_succ,
      List.range_add, List.map_append, List.map_map, msbFirst_eq_map]
    congr 1
    · refine List.map_congr_left fun i hi => ?_
      have hi := List.mem_range.1 hi
      rw [testBit_frameValue_cons, if_neg (by omega)]
      congr 1
      omega
    · refine List.map_congr_left fun i hi => ?_
      have hi := List.mem_range.1 hi
      rw [Function.comp_apply, testBit_frameValue_cons, if_pos (by omega)]
      congr 1
      omega

/-- Settles O11: the sampled bits are those of the bytes, and so those of the number. -/
theorem frameIsShiftedMostSignificantBitFirst : Obligations.FrameIsShiftedMostSignificantBitFirst := by
  intro p f hclk
  rw [sampled_frameEvents hclk, bits_eq_testBit_frameValue]

/-! ### The chain of shift registers -/

theorem length_bits (bs : List Byte) : (bs.flatMap msbFirst).length = 8 * bs.length := by
  simp [List.length_flatMap, msbFirst, Nat.mul_comm]

/-- A frame around the two bytes of slot `a` (R53). -/
theorem frame_split {n a : Nat} {f : List Byte} (hlength : f.length = 2 * n) (ha : a < n) :
    f = f.take (2 * a) ++ [slotData f a, slotOp f a] ++ f.drop (2 * a + 2) := by
  have hdata : slotData f a = f[2 * a] := by simp [slotData, show 2 * a < f.length by omega]
  have hop : slotOp f a = f[2 * a + 1] := by simp [slotOp, show 2 * a + 1 < f.length by omega]
  rw [hdata, hop]
  simp

/-- The bits that device `a` holds in the end are preceded by those of the devices beyond it, and followed by those of the `a`
devices before it. -/
theorem chainWord_append {pre word post : List Bool} {a : Nat} (hword : word.length = 16) (hpost : post.length = 16 * a) :
    chainWord (pre ++ word ++ post) a = word := by
  have hdrop : (pre ++ word ++ post).length - 16 * (a + 1) = pre.length := by
    simp only [List.length_append, hword, hpost]
    omega
  rw [chainWord, hdrop, List.append_assoc, List.drop_left, List.take_left' hword]

/-- Settles O14: the slot's opcode byte goes out before its data byte, after the slots beyond it and before those below. -/
theorem pinsDeliverEachSlotToItsDevice : Obligations.PinsDeliverEachSlotToItsDevice := by
  intro p n f a hclk hlength ha
  have hbits : f.reverse.flatMap msbFirst =
      (f.drop (2 * a + 2)).reverse.flatMap msbFirst ++ (msbFirst (slotOp f a) ++ msbFirst (slotData f a)) ++
        (f.take (2 * a)).reverse.flatMap msbFirst := by
    conv_lhs => rw [frame_split hlength ha]
    simp
  rw [sampled_frameEvents hclk, hbits]
  refine chainWord_append (by simp [msbFirst]) ?_
  rw [length_bits, List.length_reverse, List.length_take]
  omega

/-! ### A frame and the wire command in its slot -/

/-- A wire command writes the register of its opcode, if it has one, at its device alone: row by row of R86 (R110 to R123). -/
theorem exec_of_decode_wire {a : Dev} {w : WireWord} {i : Instr} (h : decode (.wire a w) = .ok i) (s : State) :
    exec i s = .next ((regOfOpcode (wireOp w)).elim s fun r => latchReg a.toNat r (wireData w) s) := by
  rw [decode, decodeWire] at h
  split at h
  case h_15 => cases h
  all_goals
    rename_i hop
    cases h
    rw [regOfOpcode, hop]
    rfl

/-- A word that is no command has an opcode without a register (R124). -/
theorem regOfOpcode_of_decode_error {a : Dev} {w : WireWord} {r : Reject} (h : decode (.wire a w) = .error r) :
    regOfOpcode (wireOp w) = none := by
  rw [decode, decodeWire] at h
  split at h
  case h_15 => simp_all [regOfOpcode]
  all_goals cases h

/-- At the chips a frame is a write to the register of its opcode, if it has one, at the target alone (R106, R125). -/
theorem emit_frameBytes_chips_eq {s : State} {a : Nat} (ha : a < s.cfg.n) (op d : Byte) :
    (emit (frameBytes s.cfg.n a op d) s).chips = ((regOfOpcode op).elim s fun r => latchReg a r d s).chips := by
  refine List.ext_getElem? fun b => ?_
  rw [emit_frameBytes_chips s _ a op d ha]
  cases hreg : regOfOpcode op with
  | none =>
    have hlatch : Chip.latch op d = id := by funext c; simp [Chip.latch, hreg]
    simp [hlatch]
  | some r =>
    have hlatch : Chip.latch op d = Chip.put r d := by funext c; simp [Chip.latch, hreg]
    rw [hlatch]
    exact (latchReg_chip s a r d b).symm

/-- Settles O16: frame and command both write the register of the opcode, if it has one. -/
theorem frameRunsTheWireCommandInItsSlot : Obligations.FrameRunsTheWireCommandInItsSlot := by
  intro s a op d ha
  refine ⟨fun i hi => ⟨_, _, send_valid op d ha, exec_of_decode_wire hi s, ?command⟩,
    fun r hr => ⟨_, send_valid op d ha, ?none⟩⟩
  case command => rw [emit_frameBytes_chips_eq ha, wireOp_wireWord, wireData_wireWord]
  case none =>
    have hreg := regOfOpcode_of_decode_error hr
    rw [wireOp_wireWord] at hreg
    rw [emit_frameBytes_chips_eq ha, hreg]
    rfl

end Sys2Proof.Machine
end

section
/-! PROOFS. What every step keeps. A predicate that each kind of activity keeps is kept by every step (`Kept.step`); by it the
configuration never changes (R20, R64), and the shape of a good state stays: one chip per device, idle ports, a canonical
buffer, every byte of it written once initialization is done. -/

namespace Sys2Proof.Machine

/-! ### Predicates that every activity keeps -/

/-- `P` is kept by each update of the state: a frame to a valid device, a row's buffer byte, a wire word at a chip, the use of
inputs and the change of DQ, the reset signal. -/
structure KeptByUpdates (P : State → Prop) : Prop where
  emit : ∀ {s a} (op d), a < s.cfg.n → P s → P (emit (frameBytes s.cfg.n a op d) s)
  setByte : ∀ {s a} (r v), a < s.cfg.n → P s → P (setByte (bufIndex a r) v s)
  latchReg : ∀ {s} (a r d), P s → P (latchReg a r d s)
  inputs : ∀ {s} (ws ts dq), P s → P { s with commands := ws, turns := ts, dq := dq }
  reboot : ∀ {s}, P s → P (reboot s)

/-- `P` is kept by each activity of a step: the updates, and the initialization sequence, which sets INIT_DONE. -/
structure Kept (P : State → Prop) : Prop extends KeptByUpdates P where
  init : ∀ {s t}, P s → initSequence s = .next t → P t

section kept
variable {P : State → Prop} {s t : State}

theorem KeptByUpdates.acts (hP : KeptByUpdates P) {ops : List Byte} (hacts : Acts ops s t) (h : P s) : P t := by
  induction hacts with
  | refl => exact h
  | send a op d _ ha _ ih => exact hP.emit op d ha ih
  | row a r v _ ha ih => exact hP.emit (s := Machine.setByte _ _ _) _ v ha (hP.setByte r v ha ih)

/-- A predicate that does not look at INIT_DONE needs no argument of its own for the initialization sequence. -/
theorem KeptByUpdates.kept (hP : KeptByUpdates P) (hdone : ∀ {s}, P s → P { s with initDone := true }) : Kept P where
  toKeptByUpdates := hP
  init {s _} h hinit := by
    obtain ⟨u, hnext, -, -, hacts⟩ := initSequence_next s
    exact Host.Outcome.next.inj (hnext.symm.trans hinit) ▸ hdone (hP.acts hacts h)

theorem UsedUp.kept (hP : Kept P) {dq : List Batch} (hu : UsedUp s t dq) (h : P s) : P t := by
  obtain ⟨ws, ts, rfl, -, -⟩ := hu
  exact hP.inputs ws ts dq h

theorem Kept.exec (hP : Kept P) {i : Instr} (hexec : exec i s = .next t) (h : P s) : P t := by
  rcases exec_cases i s t hexec with hacts | ⟨a, -, -, -, g, -, -, -, -, rfl⟩ | ⟨r, d, rfl, -⟩
  · exact hP.acts hacts h
  · exact hP.inputs s.commands s.turns (s.dq ++ [glyphBatch a g]) h
  · exact hP.latchReg _ r d h

/-- A step keeps what each of its activities keeps. -/
theorem Kept.step (hP : Kept P) (hstep : step s = .next t) (h : P s) : P t := by
  obtain ⟨-, hcase⟩ := step_cases s t hstep
  cases hcase with
  | reset ts _ ht => exact ht ▸ hP.reboot (hP.inputs s.commands ts s.dq h)
  | init _ hinit => exact hP.init h hinit
  | instr u _ hu ht =>
    rcases ht with rfl | ⟨i, hexec, -⟩
    · exact hu.kept hP h
    · exact hP.exec hexec (hu.kept hP h)
  | runner u k e rest _ _ hu hrow =>
    exact hP.acts (writeRow_acts (ops := hostOps) hrow) (hu.kept hP h)

end kept

/-! ### The configuration and the chips -/

theorem kept_cfg (c : Cfg) : Kept fun s => s.cfg = c :=
  KeptByUpdates.kept
    { emit := fun _ _ _ h => h
      setByte := fun _ _ _ h => h
      latchReg := fun _ _ _ h => h
      inputs := fun _ _ _ h => h
      reboot := fun h => h }
    fun h => h

/-- Settles O48: no activity of a step assigns the configuration. -/
theorem configurationNeverChanges : Obligations.ConfigurationNeverChanges :=
  fun s _ hstep => (kept_cfg s.cfg).step hstep rfl

theorem kept_chips_length : Kept fun s => s.chips.length = s.cfg.n :=
  KeptByUpdates.kept
    { emit := fun _ _ _ h => by simpa using h
      setByte := fun _ _ _ h => h
      latchReg := fun _ _ _ h => by simpa using h
      inputs := fun _ _ _ h => h
      reboot := fun h => h }
    fun h => h

/-! ### The ports -/

theorem frameBytes_ne_nil {n a : Nat} (h : a < n) (op d : Byte) : frameBytes n a op d ≠ [] := by
  obtain ⟨f, hf⟩ := frameBytes_eq_cons h op d
  simp [hf]

theorem emit_frameBytes_idle {n a : Nat} (h : a < n) (op d : Byte) (s : State) :
    (emit (frameBytes n a op d) s).ports.idle = true :=
  frameEvents_idle _ _ (frameBytes_ne_nil h op d)

theorem kept_idle : Kept fun s => s.ports.idle = true :=
  KeptByUpdates.kept
    { emit := fun op d ha _ => emit_frameBytes_idle ha op d _
      setByte := fun _ _ _ h => h
      latchReg := fun _ _ _ h => h
      inputs := fun _ _ _ h => h
      reboot := fun _ => rfl }
    fun h => h

/-! ### The buffer -/

theorem bufferCanonical_setByte {s : State} {a : Nat} (r : Idx) (v : Byte) (ha : a < s.cfg.n) (h : BufferCanonical s) :
    BufferCanonical (setByte (bufIndex a r) v s) := by
  obtain ⟨hwf, houtside⟩ := h
  refine ⟨Memory.wf_write _ _ _ hwf, fun i hi => ?_⟩
  have hlt := bufIndex_lt r ha
  have hi : 8 * s.cfg.n ≤ i := hi
  rw [setByte_buf, Memory.read_write_ne _ _ (by omega), houtside i hi]

theorem kept_bufferCanonical : Kept BufferCanonical :=
  KeptByUpdates.kept
    { emit := fun _ _ _ h => h
      setByte := fun r v ha h => bufferCanonical_setByte r v ha h
      latchReg := fun _ _ _ h => h
      inputs := fun _ _ _ h => h
      reboot := fun _ => ⟨rfl, fun _ _ => rfl⟩ }
    fun h => h

theorem bufferWritten_setByte {s : State} (i : Nat) (v : Byte) (h : BufferWritten s) : BufferWritten (setByte i v s) := by
  intro hdone j hj
  rw [setByte_buf, Memory.read_write]
  split
  · exact ⟨v, rfl⟩
  · exact h hdone j hj

/-- The clearing loops of the initialization write every byte (R232). -/
theorem initSequence_bufferWritten {s t : State} (hinit : initSequence s = .next t) : BufferWritten t := by
  obtain ⟨u, hnext, ⟨-, -, -, -, hcfg, -⟩, hzero, -⟩ := initSequence_next s
  obtain rfl : { u with initDone := true } = t := Host.Outcome.next.inj (hnext.symm.trans hinit)
  intro _ i hi
  obtain ⟨a, r, ha, rfl⟩ := bufIndex_surj hi
  exact ⟨0x00, hzero a (hcfg ▸ ha) r⟩

theorem kept_bufferWritten : Kept BufferWritten where
  emit _ _ _ h := h
  setByte _ v _ h := bufferWritten_setByte _ v h
  latchReg _ _ _ h := h
  inputs _ _ _ h := h
  reboot _ := nofun
  init _ hinit := initSequence_bufferWritten hinit

/-! ### The queue -/

/-- The batch of a glyph for a valid device is a good batch (R183). -/
theorem glyphBatch_good {n : Nat} {a : Dev} (g : Vector Byte 8) (ha : a.toNat < n) : BatchGood n (glyphBatch a g) := by
  refine ⟨by simp [glyphBatch, rows], ?valid, ?device, ?rise⟩
  case valid => simp [glyphBatch, ha]
  case device => simp [glyphBatch]
  case rise =>
    rw [glyphBatch, List.pairwise_map]
    exact show rows.Pairwise fun r q => r.toNat < q.toNat by decide

theorem BatchGood.tail {n : Nat} {e : Entry} {rest : Batch} (h : BatchGood n (e :: rest)) (hne : rest ≠ []) :
    BatchGood n rest := by
  obtain ⟨-, hvalid, hdevice, hrise⟩ := h
  simp only [List.mem_cons, forall_eq_or_imp] at hvalid hdevice
  exact ⟨hne, hvalid.2, fun f hf => (hdevice.2 f hf).2, hrise.of_cons⟩

/-- Serving an entry leaves a queue of good batches good, since the batch it empties is removed (R27). -/
theorem batchGood_of_mem_dqAfter {n k : Nat} {dq : List Batch} {e : Entry} {rest : Batch}
    (hdq : ∀ b ∈ dq, BatchGood n b) (hk : dq[k]? = some (e :: rest)) : ∀ b ∈ dqAfter dq k rest, BatchGood n b := by
  intro b hb
  rw [dqAfter_eq hk, List.mem_append, List.mem_append] at hb
  rcases hb with (hb | hb) | hb
  · exact hdq b (List.mem_of_mem_take hb)
  · have hrest : b = rest ∧ rest ≠ [] := by grind
    exact hrest.1 ▸ (hdq _ (List.mem_of_getElem? hk)).tail hrest.2
  · exact hdq b (List.mem_of_mem_drop hb)

theorem KeepsRest.queueGood {s t : State} (hkeeps : KeepsRest s t) (h : QueueGood s) : QueueGood t := by
  obtain ⟨hcfg, hdq, hinit, -, -⟩ := hkeeps
  rwa [QueueGood, hcfg, hdq, hinit]

/-- Once initialization is done the queue is good when its batches are. -/
theorem queueGood_of_initDone {s : State} (hinit : s.initDone = true) (h : ∀ b ∈ s.dq, BatchGood s.cfg.n b) :
    QueueGood s :=
  ⟨h, fun hnot => absurd (hinit.symm.trans hnot) (by decide)⟩

theorem exec_queueGood {i : Instr} {s t : State} (hexec : exec i s = .next t) (hinit : s.initDone = true)
    (h : QueueGood s) : QueueGood t := by
  rcases exec_cases i s t hexec with hacts | ⟨a, -, -, -, g, -, -, ha, -, rfl⟩ | ⟨r, d, rfl, -⟩
  · exact hacts.keeps.1.queueGood h
  · refine queueGood_of_initDone hinit fun b hb => ?_
    rcases List.mem_append.1 hb with hb | hb
    · exact h.1 b hb
    · exact List.mem_singleton.1 hb ▸ glyphBatch_good g ha
  · exact h

/-- A step keeps DQ good: an instruction adds at most a glyph's batch, the runner takes one entry, a reset discards all. -/
theorem step_queueGood {s t : State} (hstep : step s = .next t) (h : QueueGood s) : QueueGood t := by
  obtain ⟨hbatches, -⟩ := id h
  obtain ⟨-, hcase⟩ := step_cases s t hstep
  cases hcase with
  | reset ts _ ht => exact ht ▸ ⟨nofun, fun _ => rfl⟩
  | init _ hinit =>
    obtain ⟨u, hnext, ⟨-, -, -, -, hkeeps⟩, -, -⟩ := initSequence_next s
    exact Host.Outcome.next.inj (hnext.symm.trans hinit) ▸ queueGood_of_initDone rfl (hkeeps.queueGood h).1
  | instr u hinit hu ht =>
    obtain ⟨ws, ts, rfl, -, -⟩ := hu
    rcases ht with rfl | ⟨i, hexec, -⟩
    · exact h
    · exact exec_queueGood hexec hinit h
  | runner u k e rest hinit hk hu hrow =>
    obtain ⟨ws, ts, rfl, -, -⟩ := hu
    exact (writeRow_acts (ops := hostOps) hrow).keeps.1.queueGood
      (queueGood_of_initDone hinit (batchGood_of_mem_dqAfter hbatches hk))

/-! ### Good states -/

theorem resetWith_good {c : Cfg} {chips : List Chip} (hlegal : c.legal = true) (hlength : chips.length = c.n) :
    Good (State.resetWith c chips) :=
  ⟨hlegal, hlength, rfl, ⟨rfl, fun _ _ => rfl⟩, nofun, nofun, nofun, fun _ => rfl⟩

/-- The blank entry of the font is not one of its free values (R61). -/
theorem Cfg.atReset_legal : Cfg.atReset.legal = true := by
  rw [Cfg.legal_iff]
  refine ⟨by decide, by decide, ?_⟩
  simp [Cfg.atReset, Config.segFont]

/-- Settles O41: before initialization nothing is asked of the buffer and the queue but to be empty. -/
theorem resetStateIsGood : Obligations.ResetStateIsGood :=
  ⟨fun _ _ => resetWith_good, resetWith_good Cfg.atReset_legal (by simp [Cfg.atReset])⟩

/-- Settles O42: each part of a good state is kept by a step, the mirrored buffer by O43. -/
theorem everyStepKeepsTheStateGood : Obligations.EveryStepKeepsTheStateGood := by
  intro s t hgood hstep
  obtain ⟨hlegal, hlength, hidle, hcanonical, hwritten, hmirrors, hqueue⟩ := hgood
  have hcfg : t.cfg = s.cfg := configurationNeverChanges s t hstep
  exact ⟨hcfg ▸ hlegal, kept_chips_length.step hstep hlength, kept_idle.step hstep hidle,
    kept_bufferCanonical.step hstep hcanonical, kept_bufferWritten.step hstep hwritten,
    bufferHoldsTheLastDigitSent s t hmirrors hstep, step_queueGood hstep hqueue⟩

end Sys2Proof.Machine
end

section
/-! PROOFS. The chips follow the buffer (R23 at the receiver, R106): the initialization makes every digit register and every
buffer byte 0, and a row write changes one of each, to the same byte; only another driver's word changes a register alone. -/

namespace Sys2Proof.Machine

/-- A chip after a frame was a chip before it, and only the target's register of the opcode changed (R125). -/
theorem get_of_emit_frameBytes {s : State} {n a b : Nat} {op d : Byte} {c' : Chip} (h : a < n)
    (hc' : (emit (frameBytes n a op d) s).chips[b]? = some c') :
    ∃ c, s.chips[b]? = some c ∧ ∀ r, c'.get r = if b = a ∧ regOfOpcode op = some r then d else c.get r := by
  rw [emit_frameBytes_chips s n a op d h, Option.map_eq_some_iff] at hc'
  obtain ⟨c, hc, rfl⟩ := hc'
  refine ⟨c, hc, fun r => ?_⟩
  by_cases hb : a = b
  · simp [hb, get_latch]
  · simp [hb, Ne.symm hb]

theorem hostOps_not_digit {op : Byte} (ho : op ∈ hostOps) (r : Idx) : regOfOpcode op ≠ some (.digit r) := by
  revert op r; decide

/-- A command other than a DIGIT leaves both the buffer and the digit registers alone. -/
theorem ChipsMirrorBuffer.emit_control {s : State} {b : Nat} {op : Byte} (hb : b < s.cfg.n)
    (ho : ∀ r, regOfOpcode op ≠ some (.digit r)) (d : Byte) (h : ChipsMirrorBuffer s) :
    ChipsMirrorBuffer (emit (frameBytes s.cfg.n b op d) s) := by
  intro hdone a c' hc' r
  obtain ⟨c, hc, hget⟩ := get_of_emit_frameBytes hb hc'
  rw [hget, if_neg fun hdigit => ho r hdigit.2]
  exact h hdone a c hc r

/-- A row write gives the buffer byte and the digit register of the same device and row the same value (R23, R106). -/
theorem ChipsMirrorBuffer.emit_row {s : State} {b : Nat} (hb : b < s.cfg.n) (q : Idx) (v : Byte)
    (h : ChipsMirrorBuffer s) :
    ChipsMirrorBuffer (emit (frameBytes s.cfg.n b (opDigit q) v) (setByte (bufIndex b q) v s)) := by
  intro hdone a c' hc' r
  obtain ⟨c, hc, hget⟩ := get_of_emit_frameBytes hb hc'
  simp only [hget, emit_buf, setByte_buf, regOfOpcode_opDigit, Option.some_inj, ChipReg.digit.injEq]
  by_cases hrow : a = b ∧ q = r
  · obtain ⟨rfl, rfl⟩ := hrow
    simp
  · have hindex : bufIndex a r ≠ bufIndex b q := fun e => hrow ⟨(bufIndex_inj e).1, (bufIndex_inj e).2.symm⟩
    rw [Memory.read_write_ne _ _ hindex, if_neg hrow]
    exact h hdone a c hc r

theorem Acts.chipsMirrorBuffer {s t : State} (hacts : Acts hostOps s t) (h : ChipsMirrorBuffer s) :
    ChipsMirrorBuffer t := by
  induction hacts with
  | refl => exact h
  | send a op d _ ha ho ih => exact ih.emit_control ha (hostOps_not_digit ho) d
  | row a r v _ ha ih => exact ih.emit_row ha r v

theorem Chip.initialized_digit (c : Chip) (r : Idx) : c.initialized.get (.digit r) = 0x00 := by
  simp [Chip.initialized, Chip.get]

/-- After the initialization both the digit registers and the buffer hold 0, whatever they held before (R234). -/
theorem initSequence_chipsMirrorBuffer {s t : State} (hlength : s.chips.length = s.cfg.n)
    (hinit : initSequence s = .next t) : ChipsMirrorBuffer t := by
  obtain ⟨u, hnext, ⟨-, hreached, -⟩, hzero, -⟩ := initSequence_next s
  obtain rfl : { u with initDone := true } = t := Host.Outcome.next.inj (hnext.symm.trans hinit)
  intro _ a c' (hc' : u.chips[a]? = some c') r
  rw [hreached a, Option.map_eq_some_iff] at hc'
  obtain ⟨c, hc, rfl⟩ := hc'
  have ha : a < s.cfg.n := hlength ▸ (List.getElem?_eq_some_iff.1 hc).1
  rw [chipAfter_flatMap_initCommands, if_pos (List.mem_range.2 ha), Chip.initialized_digit]
  exact hzero a ha r

/-- Settles O44, by the cases of `step_cases`: an instruction that latches a chip's register alone is a wire word's, and no such
turn is listed. -/
theorem chipsFollowTheBuffer : Obligations.ChipsFollowTheBuffer := by
  intro s t hlength hwire h hstep
  refine ⟨kept_chips_length.step hstep hlength, ?_⟩
  obtain ⟨-, hcase⟩ := step_cases s t hstep
  cases hcase with
  | reset ts _ ht => exact ht ▸ nofun
  | init _ hinit => exact initSequence_chipsMirrorBuffer hlength hinit
  | instr u _ hu ht =>
    obtain ⟨ws, ts, rfl, -, -⟩ := hu
    rcases ht with rfl | ⟨i, hexec, hturn⟩
    · exact h
    · rcases exec_cases i _ t hexec with hacts | ⟨_, _, _, _, _, _, _, _, _, rfl⟩ | ⟨_, _, _, w, hw⟩
      · exact hacts.chipsMirrorBuffer h
      · exact h
      · obtain ⟨a, w, ts, hts⟩ := hturn ⟨_, w, rfl, hw⟩
        exact absurd hts (hwire a w ts)
  | runner u k e rest _ _ hu hrow =>
    obtain ⟨ws, ts, rfl, -, -⟩ := hu
    exact (writeRow_acts hrow).chipsMirrorBuffer h

end Sys2Proof.Machine
end

section
/-! PROOFS. What an instruction touches and what a step sends: no instruction takes a waiting row write away (R27, R184), each
changes the buffer bytes and the chip of its own device alone (R24, R125), and every frame carries one listed command to one
valid device (R87, R93, R212). -/

namespace Sys2Proof.Machine

/-! ### The queue -/

/-- Settles O35, by the three things of `exec_cases`: only the deferred batch changes DQ, and it is added at the end. -/
theorem noInstructionCancelsADeferredWrite : Obligations.NoInstructionCancelsADeferredWrite := by
  intro i s t hexec
  rcases exec_cases i s t hexec with hacts | ⟨a, digit, v, dp, g, hi, hmode, -, -, rfl⟩ | ⟨r, d, rfl, -⟩
  · obtain ⟨-, hdq, -⟩ := hacts.keeps.1
    exact .inl hdq
  · exact .inr ⟨hmode, a, digit, v, dp, glyphBatch a g, hi, rfl⟩
  · exact .inl rfl

/-! ### The device of an instruction -/

/-- From `s` to `t` no buffer byte and no chip changed but those of device `a`, nor the configuration, INIT_DONE, the waiting
host words or the coming turns. -/
structure TouchesOnly (a : Nat) (s t : State) : Prop where
  cfg : t.cfg = s.cfg
  initDone : t.initDone = s.initDone
  commands : t.commands = s.commands
  turns : t.turns = s.turns
  bytes : ∀ i, (∀ r, i ≠ bufIndex a r) → Memory.read t.buf i = Memory.read s.buf i
  others : ∀ b, b ≠ a → t.chips[b]? = s.chips[b]?

namespace TouchesOnly
variable {a : Nat} {s t u : State}

theorem refl (a : Nat) (s : State) : TouchesOnly a s s := ⟨rfl, rfl, rfl, rfl, fun _ _ => rfl, fun _ _ => rfl⟩

theorem trans (h : TouchesOnly a s t) (h' : TouchesOnly a t u) : TouchesOnly a s u :=
  ⟨h'.cfg.trans h.cfg, h'.initDone.trans h.initDone, h'.commands.trans h.commands, h'.turns.trans h.turns,
    fun i hi => (h'.bytes i hi).trans (h.bytes i hi), fun b hb => (h'.others b hb).trans (h.others b hb)⟩

theorem latchReg (a : Nat) (r : ChipReg) (d : Byte) (s : State) : TouchesOnly a s (latchReg a r d s) :=
  ⟨rfl, rfl, rfl, rfl, fun _ _ => rfl, (latchReg_latchesOnly s a r d).2.2⟩

theorem defer (a : Nat) (b : Batch) (s : State) : TouchesOnly a s (defer b s) :=
  ⟨rfl, rfl, rfl, rfl, fun _ _ => rfl, fun _ _ => rfl⟩

theorem setByte (a : Nat) (r : Idx) (v : Byte) (s : State) : TouchesOnly a s (setByte (bufIndex a r) v s) :=
  ⟨rfl, rfl, rfl, rfl, fun _ hi => Memory.read_write_ne _ _ (hi r), fun _ _ => rfl⟩

theorem send {op d : Byte} (h : send a op d s = .next t) : TouchesOnly a s t := by
  obtain ⟨ha, rfl⟩ := send_eq_next_iff.1 h
  refine ⟨rfl, rfl, rfl, rfl, fun _ _ => rfl, fun b hb => ?_⟩
  rw [emit_frameBytes_chips s _ a op d ha, if_neg (Ne.symm hb), Option.map_id, id]

theorem putRow {r : Idx} {v : Byte} (h : putRow a r v s = .next t) : TouchesOnly a s t := by
  obtain ⟨u, hwrite, hsend⟩ := (andThen_eq_next _ _ _).1 h
  unfold writeByte at hwrite
  split at hwrite
  next => cases hwrite; exact (setByte a r v s).trans (send hsend)
  next => cases hwrite

/-- An operation that checks the address and else does nothing. -/
theorem of_ite {p : Prop} [Decidable p] {r : Result} (h : (if p then r else .next s) = .next t)
    (hr : r = .next t → TouchesOnly a s t) : TouchesOnly a s t := by
  split at h
  next => exact hr h
  next => cases h; exact refl a _

theorem writeLed {r col : Idx} {state : Bool} (h : writeLed a r col state s = .next t) : TouchesOnly a s t := by
  refine of_ite h fun h => ?_
  split at h
  next => exact putRow h
  next => cases h

theorem eachRow {f : Idx → State → Result} {rs : List Idx}
    (hf : ∀ r s t, f r s = .next t → TouchesOnly a s t) (h : eachRow f rs s = .next t) : TouchesOnly a s t := by
  induction rs generalizing s with
  | nil => cases h; exact refl a _
  | cons r rs ih =>
    obtain ⟨u, hfirst, hrest⟩ := (andThen_eq_next _ _ _).1 h
    exact (hf r s u hfirst).trans (ih hrest)

theorem execClear {a : Dev} (h : execClear a s = .next t) : TouchesOnly a.toNat s t := by
  unfold Machine.execClear at h
  split at h
  next => exact eachRow (fun _ _ _ => putRow) h
  next =>
    split at h
    next => cases h; exact refl _ s
    next => cases h

theorem execSetChar {a : Dev} {digit : Idx} {v : Byte} {dp : Bool} (h : execSetChar a digit v dp s = .next t) :
    TouchesOnly a.toNat s t := by
  refine of_ite h fun h => ?_
  split at h
  next =>
    split at h
    next => cases h; exact defer _ _ s
    next => cases h; exact refl _ s
  next => exact of_ite h putRow

end TouchesOnly

/-- Every instruction touches its own device alone. -/
theorem exec_touchesOnly {i : Instr} {s t : State} (h : exec i s = .next t) : TouchesOnly i.device.toNat s t := by
  cases i with
  | shutdown a f => exact .of_ite h .send
  | on a => exact .of_ite h .send
  | off a => exact .of_ite h .send
  | setScanLimit a v => exact .of_ite h .send
  | setBrightness a v => exact .of_ite h .send
  | clear a => exact .execClear h
  | setLed a row col state => exact .writeLed h
  | setRow a row v => exact .of_ite h .putRow
  | setColumn a col v => exact .of_ite h (.eachRow fun _ _ _ => .writeLed)
  | setDigit a digit v dp => exact .of_ite h .putRow
  | setChar a digit v dp => exact .execSetChar h
  | noop a d => cases h; exact .refl _ s
  | _ => cases h; exact .latchReg _ _ _ s

/-- Settles O49: the device is in the operands of each operation the instruction is made of. -/
theorem instructionsTouchOnlyTheirDevice : Obligations.InstructionsTouchOnlyTheirDevice := by
  intro i s t hexec
  obtain ⟨hcfg, hinit, hcommands, hturns, hbytes, hothers⟩ := exec_touchesOnly hexec
  exact ⟨hcfg, hinit, hcommands, hturns, hbytes, hothers⟩

/-! ### The opcodes on the wire -/

/-- From `s` to `t` one command a frame went out, each to a valid device and each a DIGIT or one of `ops`. -/
def EmitsOnly (ops : List Byte) (s t : State) : Prop :=
  ∃ xs, Emitted s t xs ∧ ∀ x ∈ xs, x.1 < s.cfg.n ∧ (x.2.1 ∈ ops ∨ ∃ r, x.2.1 = opDigit r)

theorem EmitsOnly.of_frames_eq {ops : List Byte} {s t : State} (h : t.frames = s.frames) : EmitsOnly ops s t :=
  ⟨[], by simp [Emitted, h], by simp⟩

theorem EmitsOnly.snoc {ops : List Byte} {s u t : State} {a : Nat} {op d : Byte} (h : EmitsOnly ops s u)
    (hcfg : u.cfg = s.cfg) (ha : a < u.cfg.n) (hop : op ∈ ops ∨ ∃ r, op = opDigit r)
    (ht : t.frames = u.frames ++ [frameBytes u.cfg.n a op d]) : EmitsOnly ops s t := by
  obtain ⟨xs, hxs, hlisted⟩ := h
  refine ⟨xs ++ [(a, op, d)], ?frames, fun x hx => ?listed⟩
  case frames =>
    rw [Emitted, ht, hxs, hcfg, List.map_append, List.append_assoc]
    rfl
  case listed =>
    rcases List.mem_append.1 hx with hx | hx
    · exact hlisted x hx
    · exact List.mem_singleton.1 hx ▸ ⟨hcfg ▸ ha, hop⟩

theorem Acts.emitsOnly {ops : List Byte} {s t : State} (h : Acts ops s t) : EmitsOnly ops s t := by
  induction h with
  | refl => exact .of_frames_eq rfl
  | send a op d hacts ha ho ih => exact ih.snoc hacts.cfg ha (.inl ho) rfl
  | row a r v hacts ha ih => exact ih.snoc hacts.cfg ha (.inr ⟨r, rfl⟩) rfl

/-- An instruction sends host operations' commands only; a wire word is carried by no frame of this block. -/
theorem exec_emitsOnly {i : Instr} {s t : State} (hexec : exec i s = .next t) : EmitsOnly hostOps s t := by
  rcases exec_cases i s t hexec with hacts | ⟨_, _, _, _, _, _, _, _, _, rfl⟩ | ⟨_, _, rfl, _⟩
  · exact hacts.emitsOnly
  · exact .of_frames_eq rfl
  · exact .of_frames_eq rfl

/-- A step sends the initialization's commands before initialization and the host operations' after it (R93). -/
theorem step_emitsOnly {s t : State} (hstep : step s = .next t) :
    EmitsOnly (if s.initDone then hostOps else initOps) s t := by
  obtain ⟨-, hcase⟩ := step_cases s t hstep
  cases hcase with
  | reset ts _ ht => exact .of_frames_eq (ht ▸ rfl)
  | init hinit ht =>
    obtain ⟨u, hnext, -, -, hacts⟩ := initSequence_next s
    obtain rfl : { u with initDone := true } = t := Host.Outcome.next.inj (hnext.symm.trans ht)
    rw [hinit]
    exact hacts.emitsOnly
  | instr u hinit hu ht =>
    obtain ⟨ws, ts, rfl, -, -⟩ := hu
    rw [hinit]
    rcases ht with rfl | ⟨i, hexec, -⟩
    · exact .of_frames_eq rfl
    · exact (exec_emitsOnly hexec :)
  | runner u k e rest hinit _ hu hrow =>
    obtain ⟨ws, ts, rfl, -, -⟩ := hu
    rw [hinit]
    exact (writeRow_acts hrow).emitsOnly

/-- The opcodes of R86 but NOOP. -/
def listedOps : List Byte :=
  [0x01#8, 0x02, 0x03, 0x04, 0x05, 0x06, 0x07, 0x08, 0x09, 0x0A, 0x0B, 0x0C, 0x0F]

theorem opDigit_listed (r : Idx) : opDigit r ∈ listedOps ∧ opDigit r ≠ 0x09 ∧ opDigit r ≠ 0x0F := by
  revert r; decide

theorem hostOps_listed {op : Byte} (ho : op ∈ hostOps) : op ∈ listedOps ∧ op ≠ 0x09 ∧ op ≠ 0x0F := by
  revert op; decide

theorem initOps_listed {op : Byte} (ho : op ∈ initOps) : op ∈ listedOps := by
  revert op; decide

/-- Settles O50: the opcodes a step may send, before and after initialization, against the listed ones. -/
theorem onlyListedOpcodesAreSent : Obligations.OnlyListedOpcodesAreSent := by
  intro s t hstep
  obtain ⟨xs, hxs, hops⟩ := step_emitsOnly hstep
  refine ⟨xs, hxs, fun x hx => ?_⟩
  obtain ⟨hvalid, hop | ⟨r, hop⟩⟩ := hops x hx
  · cases hinit : s.initDone with
    | false =>
      rw [hinit] at hop
      exact ⟨hvalid, initOps_listed hop, nofun⟩
    | true =>
      rw [hinit] at hop
      obtain ⟨hlisted, hother⟩ := hostOps_listed hop
      exact ⟨hvalid, hlisted, fun _ => hother⟩
  · obtain ⟨hlisted, hother⟩ := opDigit_listed r
    exact hop ▸ ⟨hvalid, hlisted, fun _ => hother⟩

end Sys2Proof.Machine
end

section
/-! PROOFS. Which agent moves: the step on each turn, listed or by default (R65, log 4, log 5), the refusal of a configuration
that is not legal (R21, log 14), and the reset signal (R230). -/

namespace Sys2Proof.Machine

/-! ### The configuration check and the reset -/

theorem step_illegal {s : State} (h : ¬s.cfg.legal = true) : step s = .refused .illegalConfiguration := if_neg h

/-- Settles O40: the configuration is checked before a turn is taken. -/
theorem illegalConfigurationIsRefused : Obligations.IllegalConfigurationIsRefused := by
  intro s h
  refine step_illegal fun hlegal => ?_
  obtain ⟨hlow, hhigh, hblank⟩ := s.cfg.legal_iff.1 hlegal
  exact h.elim (fun hn => hn ⟨hlow, hhigh⟩) fun hfont => hfont hblank

/-- Settles O36: the fields of the state after reset. -/
theorem resetLeavesTheStatedValues : Obligations.ResetLeavesTheStatedValues :=
  fun c chips => ⟨resetWith_cfg c chips, fun i => Memory.read_nil i, resetWith_dq c chips, resetWith_initDone c chips,
    resetWith_ports c chips⟩

/-- A reset takes effect between any two steps, initialized or not (R230). -/
theorem step_reset {s : State} {ts : List Turn} (hlegal : s.cfg.legal = true) (hturns : s.turns = .reset :: ts) :
    step s = .next (reboot { s with turns := ts }) := by
  rw [step, takeTurn, if_pos hlegal, hturns]

/-- Settles O37: the step is the reset signal, whose fields are those of `reboot`. -/
theorem resetSignalDiscardsQueueAndBuffer : Obligations.ResetSignalDiscardsQueueAndBuffer :=
  fun _ _ hlegal hturns =>
    ⟨_, step_reset hlegal hturns, fun i => Memory.read_nil i, rfl, rfl, rfl, rfl, rfl, rfl, rfl, rfl⟩

/-! ### The controller, the runner and another driver -/

/-- The controller moves: its turn is listed, or no turn is and a host word waits (log 5). -/
def ControllerMoves (s : State) : Prop :=
  s.turns = .controller :: s.turns.tail ∨ s.turns = [] ∧ s.commands ≠ []

/-- The runner moves, on batch `k`: its turn is listed, or no turn is and no host word waits (log 5). -/
def RunnerMoves (s : State) (k : Nat) : Prop :=
  s.turns = .runner k :: s.turns.tail ∨ s.turns = [] ∧ s.commands = [] ∧ k = 0

theorem turns_tail_of_nil {s : State} (h : s.turns = []) : { s with turns := s.turns.tail } = s := by
  rw [h, List.tail_nil, ← h]

theorem defaultTurn_of_waiting {s : State} (h : s.commands ≠ []) : defaultTurn s = acceptCommand s := by
  obtain ⟨w, ws, hw⟩ := List.exists_cons_of_ne_nil h
  simp [defaultTurn, hw]

theorem defaultTurn_of_none {s : State} (h : s.commands = []) : defaultTurn s = deferredRowWrite 0 s := by
  simp [defaultTurn, h]

section moves
variable {s : State} (hlegal : s.cfg.legal = true) (hinit : s.initDone = true)
include hlegal hinit

theorem step_noTurn (hturns : s.turns = []) : step s = defaultTurn s := by
  simp [step, takeTurn, hlegal, hinit, hturns]

theorem step_of_controllerMoves (h : ControllerMoves s) : step s = acceptCommand { s with turns := s.turns.tail } := by
  rcases h with hturns | ⟨hturns, hcommands⟩
  · rw [step, takeTurn, if_pos hlegal, hinit, hturns]
    rfl
  · rw [step_noTurn hlegal hinit hturns, defaultTurn_of_waiting hcommands, turns_tail_of_nil hturns]

theorem step_of_runnerMoves {k : Nat} (h : RunnerMoves s k) :
    step s = deferredRowWrite k { s with turns := s.turns.tail } := by
  rcases h with hturns | ⟨hturns, hcommands, rfl⟩
  · exact step_runner hlegal hinit hturns
  · rw [step_noTurn hlegal hinit hturns, defaultTurn_of_none hcommands, turns_tail_of_nil hturns]

end moves

/-- Settles O8: with no turn listed the step is the one that the controller, or the runner on the first batch, takes on its
listed turn; an illegal configuration is refused either way. -/
theorem defaultTurnIsTheControllerElseTheRunner : Obligations.DefaultTurnIsTheControllerElseTheRunner := by
  intro s hinit
  by_cases hlegal : s.cfg.legal = true
  · constructor
    · intro hcommands
      exact (step_of_controllerMoves (s := { s with turns := [] }) hlegal hinit (.inr ⟨rfl, hcommands⟩)).trans
        (step_of_controllerMoves (s := { s with turns := [.controller] }) hlegal hinit (.inl rfl)).symm
    · intro hcommands
      exact (step_of_runnerMoves (s := { s with turns := [] }) hlegal hinit (.inr ⟨rfl, hcommands, rfl⟩)).trans
        (step_of_runnerMoves (s := { s with turns := [.runner 0] }) hlegal hinit (.inl rfl)).symm
  · have hrefused (ts : List Turn) : step { s with turns := ts } = .refused .illegalConfiguration := step_illegal hlegal
    exact ⟨fun _ => (hrefused _).trans (hrefused _).symm, fun _ => (hrefused _).trans (hrefused _).symm⟩

theorem runCode_of_ok {c : Code} {i : Instr} (h : decode c = .ok i) (s : State) : runCode c s = exec i s := by
  simp [runCode, h]

/-- Settles O7: the controller's step and the other driver's step both run the word they take. -/
theorem stepRunsTheDecodedInstruction : Obligations.StepRunsTheDecodedInstruction := by
  refine fun s i hlegal hinit => ⟨fun w ws ts hturns hcommands hdecode => ?controller, fun a w ts hturns hdecode => ?wire⟩
  case controller => rw [step_controller hlegal hinit hcommands hturns, runCode_of_ok hdecode]
  case wire => rw [step_wire hlegal hinit hturns, runCode_of_ok hdecode]

/-- Which agent moves in the next step, and what the step then is. -/
inductive Move (s : State) : Prop
  | reset (ts : List Turn) (hturns : s.turns = .reset :: ts) (hstep : step s = .next (reboot { s with turns := ts }))
  | init (hinit : s.initDone = false) (hturns : ∀ ts, s.turns ≠ .reset :: ts) (hstep : step s = initSequence s)
  | controller (hinit : s.initDone = true) (hmoves : ControllerMoves s)
      (hstep : step s = acceptCommand { s with turns := s.turns.tail })
  | runner (k : Nat) (hinit : s.initDone = true) (hmoves : RunnerMoves s k)
      (hstep : step s = deferredRowWrite k { s with turns := s.turns.tail })
  | wire (a : Dev) (w : WireWord) (ts : List Turn) (hinit : s.initDone = true) (hturns : s.turns = .wire a w :: ts)
      (hstep : step s = runCode (.wire a w) { s with turns := ts })

/-- In a legal configuration some agent moves (R65). -/
theorem move_of_legal {s : State} (hlegal : s.cfg.legal = true) : Move s := by
  by_cases hreset : ∃ ts, s.turns = .reset :: ts
  · obtain ⟨ts, hturns⟩ := hreset
    exact .reset ts hturns (step_reset hlegal hturns)
  push Not at hreset
  cases hinit : s.initDone with
  | false => exact .init hinit hreset (step_init hlegal hinit hreset)
  | true =>
    have controller (h : ControllerMoves s) : Move s := .controller hinit h (step_of_controllerMoves hlegal hinit h)
    have runner (k : Nat) (h : RunnerMoves s k) : Move s := .runner k hinit h (step_of_runnerMoves hlegal hinit h)
    match hturns : s.turns with
    | .reset :: ts => exact absurd hturns (hreset ts)
    | .controller :: ts => exact controller (.inl (by rw [hturns]; rfl))
    | .runner k :: ts => exact runner k (.inl (by rw [hturns]; rfl))
    | .wire a w :: ts => exact .wire a w ts hinit hturns (step_wire hlegal hinit hturns)
    | [] =>
      by_cases hcommands : s.commands = []
      · exact runner 0 (.inr ⟨hturns, hcommands, rfl⟩)
      · exact controller (.inr ⟨hturns, hcommands⟩)

/-- The batch `servedBatch` names is the one the runner moves on. -/
theorem servedBatch_eq_some_iff {s : State} {k : Nat} :
    servedBatch s = some k ↔ s.initDone = true ∧ RunnerMoves s k := by
  cases hinit : s.initDone with
  | false => simp [servedBatch, hinit]
  | true =>
    rw [servedBatch, RunnerMoves, hinit]
    match hturns : s.turns with
    | .reset :: ts => simp
    | .controller :: ts => simp
    | .runner j :: ts => simp
    | .wire a w :: ts => simp
    | [] => by_cases hcommands : s.commands = [] <;> simp [hcommands, eq_comm]

end Sys2Proof.Machine
end

section
/-! PROOFS. SETDIGIT (R154), and the reads of bytes that nothing has written (R25, R205). -/

namespace Sys2Proof

theorem hostWord_setDigit (a : Dev) (digit : Idx) (v : Byte) (dp : Bool) :
    hostWord 0x8 a dp digit 0 v =
      0x80000000#32 ||| a.setWidth 32 <<< 20 ||| (if dp then 0x00080000#32 else 0) |||
        digit.setWidth 32 <<< 16 ||| v.setWidth 32 := by
  rw [hostWord, setWidth_ofBool_shiftLeft]
  simp

namespace Machine

/-- Settles O28: past the address check SETDIGIT is the row write of the font byte with its point. -/
theorem setDigitStoresTheFontByte : Obligations.SetDigitStoresTheFontByte := by
  refine fun s a digit v dp => ⟨?word, fun ha => writeDigit_storesByte digit v dp ha,
    writeDigit_invalid s a.toNat digit v dp⟩
  exact decode_host_iff rfl (congrArg Code.host (hostWord_setDigit a digit v dp))

theorem writeLed_unwritten {s : State} {a : Nat} {r : Idx} (col : Idx) (state : Bool) (ha : valid s a)
    (hr : Memory.read s.buf (bufIndex a r) = none) : writeLed a r col state s = .fault .unwrittenRead := by
  simp [writeLed, ha, readByte, bufIndex_lt r ha, hr]

/-- Settles O30: SETLED reads the row first, and SETCOLUMN is a SETLED of each row. -/
theorem unwrittenReadIsAFault : Obligations.UnwrittenReadIsAFault := by
  intro s a row col state v ha
  refine ⟨writeLed_unwritten col state ha, fun ⟨r, hr⟩ => ?_⟩
  exact (if_pos ha).trans (eachRow_unwritten a.toNat col (columnBit v) rows s ha r (mem_rows r) hr)

end Machine

end Sys2Proof
end

section
/-! PROOFS. The order of two row writes to one row: the last one taken leaves its byte, a deferred write against a SETROW
(R187) and one batch against another (R189). -/

namespace Sys2Proof.Machine

/-- A controller's step on a waiting SETROW of a valid device (R152). -/
theorem step_setRow {s : State} {a : Dev} {r : Idx} {v : Byte} {ws : List HostWord} {ts : List Turn}
    (hlegal : s.cfg.legal = true) (hinit : s.initDone = true) (hturns : s.turns = .controller :: ts)
    (hcommands : s.commands = hostWord 0x6 a false r 0 v :: ws) (ha : a.toNat < s.cfg.n) :
    ∃ t, step s = .next t ∧ Sends { s with commands := ws, turns := ts } t [(a.toNat, opDigit r, v)] ∧
      StoresByte s t a.toNat r v := by
  have hdecode : decode (.host (hostWord 0x6 a false r 0 v)) = .ok (.setRow a r v) := decode_encode (i := .setRow a r v) rfl
  rw [step_controller hlegal hinit hcommands hturns, runCode_of_ok hdecode]
  exact writeRow_storesByte (s := { s with commands := ws, turns := ts }) r v ha

/-- Two steps, the first of which answers a next state. -/
theorem runSteps_two {s t : State} (h : step s = .next t) : runSteps 2 s = step t := by
  cases ht : step t <;> simp [runSteps, h, ht, andThen]

/-- Settles O33: in either order the second write leaves its byte. -/
theorem deferredWriteRacesWithANewerWrite : Obligations.DeferredWriteRacesWithANewerWrite := by
  intro s k e rest v ws hlegal hinit hk ha hcommands
  constructor
  · obtain ⟨t, hfirst, ⟨-, -, -, -, hcfg, hdq, hdone, hwords, hturns⟩, -⟩ :=
      step_setRow (s := { s with turns := [.controller, .runner k] }) hlegal hinit rfl hcommands ha
    obtain ⟨u, hsecond, ⟨-, -, -, -, -, -, -, hleft, -⟩, hstores⟩ :=
      runnerStepServesTheFirstEntry t k e rest [] (hcfg ▸ hlegal) (hdone.trans hinit) hturns (hdq ▸ hk) (hcfg ▸ ha)
    exact ⟨u, (runSteps_two hfirst).trans hsecond, hleft.trans hwords, hstores.read⟩
  · obtain ⟨t, hfirst, ⟨-, -, -, -, hcfg, -, hdone, hwords, hturns⟩, -⟩ :=
      runnerStepServesTheFirstEntry { s with turns := [.runner k, .controller] } k e rest [.controller] hlegal hinit rfl
        hk ha
    obtain ⟨u, hsecond, ⟨-, -, -, -, -, -, -, hleft, -⟩, hstores⟩ :=
      step_setRow (hcfg ▸ hlegal) (hdone.trans hinit) hturns (hwords.trans hcommands) (hcfg ▸ ha)
    exact ⟨u, (runSteps_two hfirst).trans hsecond, hleft, hstores.read⟩

/-- Two runner steps on batches that each keep an entry: both batches lose their first one, and the row of the second entry
served holds its byte. -/
theorem runSteps_two_runners {s : State} {j k : Nat} {e f : Entry} {A B : Batch} (hlegal : s.cfg.legal = true)
    (hinit : s.initDone = true) (hjk : j ≠ k) (hj : s.dq[j]? = some (e :: A)) (hk : s.dq[k]? = some (f :: B))
    (hA : A ≠ []) (hB : B ≠ []) (he : e.a.toNat < s.cfg.n) (hf : f.a.toNat < s.cfg.n) :
    ∃ t, runSteps 2 { s with turns := [.runner j, .runner k] } = .next t ∧ t.dq = (s.dq.set j A).set k B ∧
      Memory.read t.buf (bufIndex f.a.toNat f.r) = some f.v := by
  obtain ⟨t, hfirst, ⟨-, -, -, -, hcfg, hdq, hdone, -, hturns⟩, -⟩ :=
    runnerStepServesTheFirstEntry { s with turns := [.runner j, .runner k] } j e A [.runner k] hlegal hinit rfl hj he
  have hdq : t.dq = s.dq.set j A := hdq.trans (if_neg hA)
  obtain ⟨u, hsecond, ⟨-, -, -, -, -, hleft, -⟩, hstores⟩ :=
    runnerStepServesTheFirstEntry t k f B [] (hcfg ▸ hlegal) (hdone.trans hinit) hturns
      (by rw [hdq, List.getElem?_set_ne hjk, hk]) (hcfg ▸ hf)
  refine ⟨u, (runSteps_two hfirst).trans hsecond, ?_, hstores.read⟩
  exact hleft.trans ((if_neg hB).trans (by rw [hdq]))

/-- Settles O34: either batch may come first, and the entry served last leaves its byte. -/
theorem batchesInterleaveInAnyOrder : Obligations.BatchesInterleaveInAnyOrder := by
  intro s a r x y A B hlegal hinit ha hA hB hdq
  have hzero : s.dq[0]? = some (⟨a, r, x⟩ :: A) := by rw [hdq]; rfl
  have hone : s.dq[1]? = some (⟨a, r, y⟩ :: B) := by rw [hdq]; rfl
  obtain ⟨t, ht, hqueue, hread⟩ := runSteps_two_runners hlegal hinit zero_ne_one hzero hone hA hB ha ha
  obtain ⟨u, hu, hqueue', hread'⟩ := runSteps_two_runners hlegal hinit one_ne_zero hone hzero hB hA ha ha
  rw [hdq] at hqueue hqueue'
  exact ⟨⟨t, ht, hqueue, hread⟩, ⟨u, hu, hqueue', hread'⟩⟩

end Sys2Proof.Machine
end

section
/-! PROOFS. Progress: from a good state a step answers a next state, but for a waiting CLEAR of an invalid address when
CLEAR_GUARD = 0 (R205). -/

namespace Sys2Proof.Machine

/-- Every row of every valid device has been written (R25). -/
def RowsWritten (s : State) : Prop :=
  ∀ a, valid s a → ∀ r, ∃ b, Memory.read s.buf (bufIndex a r) = some b

theorem BufferWritten.rowsWritten {s : State} (h : BufferWritten s) (hinit : s.initDone = true) : RowsWritten s :=
  fun _ ha r => h hinit _ (bufIndex_lt r ha)

/-- An operation that answers a next state where `p` holds, and else does nothing, always answers one. -/
theorem next_of_cases {p : Prop} {r : Result} {s : State} (hvalid : p → ∃ t, r = .next t) (hinvalid : ¬p → r = .next s) :
    ∃ t, r = .next t := by
  by_cases h : p
  · exact hvalid h
  · exact ⟨s, hinvalid h⟩

section progress
variable {s : State}

theorem setPower_progress (a : Nat) (f : Bool) : ∃ t, setPower a f s = .next t :=
  next_of_cases (fun h => (setPower_valid s a f h).imp fun _ ht => ht.1) (setPower_invalid s a f)

theorem writeRow_progress (a : Nat) (r : Idx) (v : Byte) : ∃ t, writeRow a r v s = .next t :=
  next_of_cases (fun h => (writeRow_storesByte r v h).imp fun _ ht => ht.1) (writeRow_invalid s a r v)

theorem writeDigit_progress (a : Nat) (digit : Idx) (v : Byte) (dp : Bool) :
    ∃ t, writeDigit a digit v dp s = .next t :=
  next_of_cases (fun h => (writeDigit_storesByte digit v dp h).imp fun _ ht => ht.1) (writeDigit_invalid s a digit v dp)

theorem execSetScanLimit_progress (a : Dev) (v : Byte) : ∃ t, execSetScanLimit a v s = .next t :=
  next_of_cases (fun h => (execSetScanLimit_valid v h).imp fun _ ht => ht.1) fun h => execSetScanLimit_invalid h v

theorem execSetBrightness_progress (a : Dev) (v : Byte) : ∃ t, execSetBrightness a v s = .next t :=
  next_of_cases (fun h => (execSetBrightness_valid v h).imp fun _ ht => ht.1) fun h => execSetBrightness_invalid h v

theorem writeLed_progress (hrows : RowsWritten s) (a : Nat) (row col : Idx) (state : Bool) :
    ∃ t, writeLed a row col state s = .next t :=
  next_of_cases (fun h => have ⟨_, hb⟩ := hrows a h row; (writeLed_storesByte col state h hb).imp fun _ ht => ht.1)
    (writeLed_invalid s a row col state)

theorem execSetColumn_progress (hrows : RowsWritten s) (a : Dev) (col : Idx) (v : Byte) :
    ∃ t, execSetColumn a col v s = .next t :=
  next_of_cases
    (fun h => have ⟨_, hold⟩ := Classical.skolem.1 (hrows a.toNat h)
      (execSetColumn_valid col v h hold).imp fun _ ht => ht.1)
    fun h => execSetColumn_invalid h col v

theorem execSetChar_progress (a : Dev) (digit : Idx) (v : Byte) (dp : Bool) :
    ∃ t, execSetChar a digit v dp s = .next t := by
  cases hmode : s.cfg.isMatrix with
  | false =>
    rw [execSetChar_segment digit dp hmode]
    exact writeDigit_progress a.toNat digit v dp
  | true =>
    cases hglyph : glyph s.cfg v with
    | none => exact ⟨s, execSetChar_noGlyph digit dp hmode hglyph⟩
    | some g =>
      exact next_of_cases (fun h => ⟨_, execSetChar_glyph digit dp h hmode hglyph⟩)
        fun h => execSetChar_invalid h digit v dp

/-- CLEAR stops only for an invalid address without the guard (R150). -/
theorem execClear_progress (a : Dev) :
    (∃ t, execClear a s = .next t) ∨
      (s.cfg.clearGuard = false ∧ ¬valid s a.toNat ∧ execClear a s = .fault .clearOutOfRange) := by
  by_cases ha : valid s a.toNat
  · obtain ⟨t, ht, -⟩ := clearRows_next s a.toNat ha
    exact .inl ⟨t, (execClear_valid ha).trans ht⟩
  · cases hguard : s.cfg.clearGuard with
    | true => exact .inl ⟨s, execClear_invalid_guarded ha hguard⟩
    | false => exact .inr ⟨rfl, ha, execClear_invalid_unguarded ha hguard⟩

/-- Where every row has been written, the one instruction that can stop is CLEAR. -/
theorem exec_progress (hrows : RowsWritten s) (i : Instr) :
    (∃ t, exec i s = .next t) ∨
      (s.cfg.clearGuard = false ∧ ∃ a, i = .clear a ∧ ¬valid s a.toNat ∧ exec i s = .fault .clearOutOfRange) := by
  cases i with
  | clear a =>
    rcases execClear_progress (s := s) a with h | ⟨hguard, ha, hfault⟩
    · exact .inl h
    · exact .inr ⟨hguard, a, rfl, ha, hfault⟩
  | shutdown a f => exact .inl (setPower_progress a.toNat f)
  | on a => exact .inl (setPower_progress a.toNat false)
  | off a => exact .inl (setPower_progress a.toNat true)
  | setScanLimit a v => exact .inl (execSetScanLimit_progress a v)
  | setBrightness a v => exact .inl (execSetBrightness_progress a v)
  | setLed a row col state => exact .inl (writeLed_progress hrows a.toNat row col state)
  | setRow a row v => exact .inl (writeRow_progress a.toNat row v)
  | setColumn a col v => exact .inl (execSetColumn_progress hrows a col v)
  | setDigit a digit v dp => exact .inl (writeDigit_progress a.toNat digit v dp)
  | setChar a digit v dp => exact .inl (execSetChar_progress a digit v dp)
  | _ => exact .inl ⟨_, rfl⟩

/-- The controller's step stops only on a waiting CLEAR. -/
theorem acceptCommand_progress (hrows : RowsWritten s) :
    (∃ t, acceptCommand s = .next t) ∨
      (s.cfg.clearGuard = false ∧
        (∃ w ws a, s.commands = w :: ws ∧ decode (.host w) = .ok (.clear a) ∧ ¬a.toNat < s.cfg.n) ∧
        acceptCommand s = .fault .clearOutOfRange) := by
  cases hcommands : s.commands with
  | nil => exact .inl ⟨s, by simp [acceptCommand, hcommands]⟩
  | cons w ws =>
    have haccept : acceptCommand s = runCode (.host w) { s with commands := ws } := by simp [acceptCommand, hcommands]
    rw [haccept]
    cases hdecode : decode (.host w) with
    | error r => exact .inl ⟨_, runCode_of_error hdecode _⟩
    | ok i =>
      rw [runCode_of_ok hdecode]
      rcases exec_progress (s := { s with commands := ws }) hrows i with h | ⟨hguard, a, rfl, ha, hfault⟩
      · exact .inl h
      · exact .inr ⟨hguard, ⟨w, ws, a, rfl, hdecode, ha⟩, hfault⟩

theorem runCode_wire_progress (a : Dev) (w : WireWord) : ∃ t, runCode (.wire a w) s = .next t := by
  cases hdecode : decode (.wire a w) with
  | error r => exact ⟨_, runCode_of_error hdecode s⟩
  | ok i => exact ⟨_, (runCode_of_ok hdecode s).trans (exec_of_decode_wire hdecode s)⟩

theorem deferredRowWrite_progress (k : Nat) : ∃ t, deferredRowWrite k s = .next t := by
  unfold deferredRowWrite
  split
  · exact writeRow_progress _ _ _
  · exact ⟨s, rfl⟩
  · exact ⟨s, rfl⟩

end progress

/-- Settles O45, agent by agent: only the controller's step can stop. -/
theorem goodStatesNeverFaultWhenGuarded : Obligations.GoodStatesNeverFaultWhenGuarded := by
  intro s hgood
  obtain ⟨hlegal, -, -, -, hwritten, -, -⟩ := hgood
  cases move_of_legal hlegal with
  | reset ts _ hstep => exact .inl ⟨_, hstep⟩
  | init _ _ hstep =>
    obtain ⟨u, hnext, -⟩ := initSequence_next s
    exact .inl ⟨_, hstep.trans hnext⟩
  | controller hinit hmoves hstep =>
    rw [hstep]
    rcases acceptCommand_progress (s := { s with turns := s.turns.tail }) (hwritten.rowsWritten hinit) with
      h | ⟨hguard, hwaiting, hfault⟩
    · exact .inl h
    · exact .inr ⟨hguard, hinit, hmoves.symm.imp And.left fun hturns => ⟨_, hturns⟩, hwaiting, hfault⟩
  | runner k _ _ hstep =>
    rw [hstep]
    exact .inl (deferredRowWrite_progress k)
  | wire a w ts _ _ hstep =>
    rw [hstep]
    exact .inl (runCode_wire_progress a w)

end Sys2Proof.Machine
end

section
/-! PROOFS. Completion: every step of an unfinished run brings `stepsLeft` down (R246), and the runner takes every waiting
entry on the way (R184, R186, R188). -/

namespace Sys2Proof.Machine

/-! ### How many row writes wait -/

theorem pending_eq_length_flatten (dq : List Batch) : pending dq = dq.flatten.length := List.length_flatten.symm

@[simp] theorem pending_append_singleton (dq : List Batch) (b : Batch) : pending (dq ++ [b]) = pending dq + b.length := by
  simp [pending]

theorem pending_dqAfter {dq : List Batch} {k : Nat} {e : Entry} {rest : Batch} (hk : dq[k]? = some (e :: rest)) :
    pending (dqAfter dq k rest) + 1 = pending dq := by
  rw [pending_eq_length_flatten, pending_eq_length_flatten, (flatten_dqAfter hk).length_eq, List.length_cons]

/-! ### The measure -/

theorem KeepsRest.stepsLeft_eq {s t : State} (h : KeepsRest s t) : stepsLeft t = stepsLeft s := by
  obtain ⟨-, hdq, hinit, hcommands, hturns⟩ := h
  rw [stepsLeft, hdq, hinit, hcommands, hturns]
  rfl

theorem stepsLeft_of_turn {s : State} {x : Turn} {ts : List Turn} (h : s.turns = x :: ts) :
    stepsLeft { s with turns := ts } + 2 = stepsLeft s := by
  simp only [stepsLeft, h, List.length_cons]
  omega

theorem stepsLeft_of_command {s : State} {w : HostWord} {ws : List HostWord} (h : s.commands = w :: ws) :
    stepsLeft { s with commands := ws } + 9 = stepsLeft s := by
  simp only [stepsLeft, h, List.length_cons]
  omega

theorem stepsLeft_of_dq (s : State) (dq : List Batch) :
    stepsLeft { s with dq := dq } + pending s.dq = stepsLeft s + pending dq := by
  simp only [stepsLeft]
  ring

theorem stepsLeft_defer (b : Batch) (s : State) : stepsLeft (defer b s) = stepsLeft s + b.length := by
  have hused : stepsLeft (defer b s) + pending s.dq = stepsLeft s + pending (s.dq ++ [b]) := stepsLeft_of_dq s _
  rw [pending_append_singleton] at hused
  omega

theorem stepsLeft_tail_le (s : State) : stepsLeft { s with turns := s.turns.tail } ≤ stepsLeft s := by
  simp only [stepsLeft, List.length_tail]
  omega

/-- An instruction defers at most the 8 row writes of a glyph (R183). -/
theorem exec_stepsLeft {i : Instr} {s t : State} (hexec : exec i s = .next t) : stepsLeft t ≤ stepsLeft s + 8 := by
  rcases exec_cases i s t hexec with hacts | ⟨a, -, -, -, g, -, -, -, -, rfl⟩ | ⟨r, d, rfl, -⟩
  · exact hacts.keeps.1.stepsLeft_eq ▸ Nat.le_add_right ..
  · rw [stepsLeft_defer, glyphBatch_length]
  · exact Nat.le_add_right ..

/-- A wire word defers nothing. -/
theorem runCode_wire_stepsLeft {a : Dev} {w : WireWord} {s t : State} (h : runCode (.wire a w) s = .next t) :
    stepsLeft t = stepsLeft s := by
  cases hdecode : decode (.wire a w) with
  | error r =>
    rw [runCode_of_error hdecode] at h
    exact Host.Outcome.next.inj h ▸ rfl
  | ok i =>
    rw [runCode_of_ok hdecode, exec_of_decode_wire hdecode] at h
    obtain rfl := Host.Outcome.next.inj h
    cases regOfOpcode (wireOp w) <;> rfl

/-- Accepting a word uses up more than the row writes it may defer. -/
theorem acceptCommand_stepsLeft {s t : State} (h : acceptCommand s = .next t) :
    stepsLeft t ≤ stepsLeft s ∧ (s.commands ≠ [] → stepsLeft t < stepsLeft s) := by
  unfold acceptCommand at h
  split at h
  next hnone => cases h; exact ⟨le_rfl, fun hsome => absurd hnone hsome⟩
  next w ws hcommands =>
    have hused := stepsLeft_of_command hcommands
    have hrun : stepsLeft t ≤ stepsLeft { s with commands := ws } + 8 := by
      cases hdecode : decode (.host w) with
      | error r =>
        rw [runCode_of_error hdecode] at h
        exact Host.Outcome.next.inj h ▸ Nat.le_add_right ..
      | ok i => exact exec_stepsLeft ((runCode_of_ok hdecode _).symm.trans h)
    exact ⟨by omega, fun _ => by omega⟩

/-- A row write of the runner takes one entry off DQ. -/
theorem deferredRowWrite_stepsLeft {k : Nat} {s t : State} (h : deferredRowWrite k s = .next t) :
    stepsLeft t ≤ stepsLeft s ∧ (∀ e rest, s.dq[k]? = some (e :: rest) → stepsLeft t < stepsLeft s) := by
  unfold deferredRowWrite at h
  split at h
  next e rest hk =>
    have hused := stepsLeft_of_dq s (dqAfter s.dq k rest)
    have hserved := pending_dqAfter hk
    have hwrite := (writeRow_acts (ops := hostOps) h).keeps.1.stepsLeft_eq
    exact ⟨by omega, fun _ _ _ => by omega⟩
  next hk => cases h; exact ⟨le_rfl, fun e rest he => by simp [hk] at he⟩
  next hk => cases h; exact ⟨le_rfl, fun e rest he => by simp [hk] at he⟩

theorem reboot_stepsLeft {s : State} {ts : List Turn} (h : s.turns = .reset :: ts) :
    stepsLeft (reboot { s with turns := ts }) < stepsLeft s := by
  simp [stepsLeft, h, pending]
  omega

theorem initSequence_stepsLeft {s t : State} (hinit : s.initDone = false) (h : initSequence s = .next t) :
    stepsLeft t < stepsLeft s := by
  obtain ⟨u, hnext, ⟨-, -, -, -, -, hdq, -, hcommands, hturns⟩, -, -⟩ := initSequence_next s
  obtain rfl : { u with initDone := true } = t := Host.Outcome.next.inj (hnext.symm.trans h)
  simp [stepsLeft, hdq, hcommands, hturns, hinit]

/-- In an unfinished run whose turns are used up, with no word waiting, batch 0 has an entry for the runner (R27). -/
theorem exists_entry_of_not_complete {s : State} (hqueue : QueueGood s) (hinit : s.initDone = true)
    (hcommands : s.commands = []) (hnot : ¬Complete s) : ∃ e rest, s.dq[0]? = some (e :: rest) := by
  cases hdq : s.dq with
  | nil => exact absurd ⟨hinit, hcommands, hdq⟩ hnot
  | cons b bs =>
    obtain ⟨hne, -⟩ := hqueue.1 b (hdq ▸ List.mem_cons_self ..)
    obtain ⟨e, rest, rfl⟩ := List.exists_cons_of_ne_nil hne
    exact ⟨e, rest, rfl⟩

/-- Every step of an unfinished run from a good state brings the measure down. -/
theorem step_stepsLeft {s t : State} (hgood : Good s) (hnot : ¬Complete s) (h : step s = .next t) :
    stepsLeft t < stepsLeft s := by
  obtain ⟨hlegal, -, -, -, -, -, hqueue⟩ := hgood
  cases move_of_legal hlegal with
  | reset ts hturns hstep => exact Host.Outcome.next.inj (hstep.symm.trans h) ▸ reboot_stepsLeft hturns
  | init hinit _ hstep => exact initSequence_stepsLeft hinit (hstep.symm.trans h)
  | wire a w ts _ hturns hstep =>
    have hused := stepsLeft_of_turn hturns
    have hrun := runCode_wire_stepsLeft (hstep.symm.trans h)
    omega
  | controller _ hmoves hstep =>
    obtain ⟨hle, hlt⟩ := acceptCommand_stepsLeft (hstep.symm.trans h)
    rcases hmoves with hturns | ⟨-, hcommands⟩
    · have hused := stepsLeft_of_turn hturns
      omega
    · exact (hlt hcommands).trans_le (stepsLeft_tail_le s)
  | runner k hinit hmoves hstep =>
    obtain ⟨hle, hlt⟩ := deferredRowWrite_stepsLeft (hstep.symm.trans h)
    rcases hmoves with hturns | ⟨-, hcommands, rfl⟩
    · have hused := stepsLeft_of_turn hturns
      omega
    · obtain ⟨e, rest, hk⟩ := exists_entry_of_not_complete hqueue hinit hcommands hnot
      exact (hlt e rest hk).trans_le (stepsLeft_tail_le s)

/-! ### Runs to completion -/

/-- With the guard a good state has a next state, which is good and has the guard. -/
theorem step_of_good {s : State} (hgood : Good s) (hguard : s.cfg.clearGuard = true) :
    ∃ t, step s = .next t ∧ Good t ∧ t.cfg.clearGuard = true := by
  rcases goodStatesNeverFaultWhenGuarded s hgood with ⟨t, ht⟩ | ⟨hnot, -⟩
  · exact ⟨t, ht, everyStepKeepsTheStateGood s t hgood ht, configurationNeverChanges s t ht ▸ hguard⟩
  · exact absurd (hguard.symm.trans hnot) (by decide)

/-- What holds of complete states, and of a state when it holds of its next one, holds of every good state with the guard. -/
theorem run_induction {P : State → Prop} (hcomplete : ∀ s, Complete s → P s)
    (hstep : ∀ s t, step s = .next t → stepsLeft t < stepsLeft s → P t → P s) (s : State) (hgood : Good s)
    (hguard : s.cfg.clearGuard = true) : P s := by
  induction hleft : stepsLeft s using Nat.strong_induction_on generalizing s with
  | _ left ih =>
    by_cases hdone : Complete s
    · exact hcomplete s hdone
    · obtain ⟨t, ht, hgood', hguard'⟩ := step_of_good hgood hguard
      have hlt := step_stepsLeft hgood hdone ht
      exact hstep s t ht hlt (ih _ (hleft ▸ hlt) t hgood' hguard' rfl)

theorem runSteps_succ {s t : State} (h : step s = .next t) (k : Nat) : runSteps (k + 1) s = runSteps k t := by
  rw [runSteps, h, andThen_next]

/-- Settles O46: a complete state needs no step, and every other step brings `stepsLeft` down. -/
theorem everyRunCompletes : Obligations.EveryRunCompletes := by
  intro s hgood hguard
  refine run_induction (P := fun s => ∃ k t, k ≤ stepsLeft s ∧ runSteps k s = .next t ∧ Complete t)
    (fun s hdone => ⟨0, s, Nat.zero_le _, rfl, hdone⟩) (fun s t hnext hlt ih => ?_) s hgood hguard
  obtain ⟨k, u, hk, hrun, hdone⟩ := ih
  exact ⟨k + 1, u, by omega, (runSteps_succ hnext k).trans hrun, hdone⟩

/-! ### What the runner takes -/

/-- Every entry of `dq` is in `served`, as often as it waits, and those of one batch in their order. -/
def AllServed (dq : List Batch) (served : List Entry) : Prop :=
  dq.flatten.Subperm served ∧ ∀ b ∈ dq, b.Sublist served

/-- What is served after an entry left, and that entry before it. -/
theorem AllServed.cons {dq : List Batch} {k : Nat} {e : Entry} {rest : Batch} {served : List Entry}
    (hk : dq[k]? = some (e :: rest)) (h : AllServed (dqAfter dq k rest) served) : AllServed dq (e :: served) := by
  obtain ⟨hentries, hbatches⟩ := h
  refine ⟨(flatten_dqAfter hk).subperm.trans ((List.subperm_cons e).2 hentries), fun b hb => ?_⟩
  rcases mem_dqAfter hk b hb with hstays | ⟨rfl, rfl | hrest⟩
  · exact (hbatches b hstays).cons e
  · exact (List.nil_sublist served).cons_cons e
  · exact (hbatches rest hrest).cons_cons e

theorem AllServed.of_append {dq : List Batch} {b : Batch} {served : List Entry} (h : AllServed (dq ++ [b]) served) :
    AllServed dq served := by
  obtain ⟨hentries, hbatches⟩ := h
  have hsub : dq.flatten.Sublist (dq ++ [b]).flatten := by simp
  exact ⟨hsub.subperm.trans hentries, fun c hc => hbatches c (List.mem_append_left _ hc)⟩

theorem servedIn_succ {s t : State} (h : step s = .next t) (k : Nat) :
    servedIn (k + 1) s = (servedNow s).toList ++ servedIn k t := by
  rw [servedIn, h]

/-- A step takes the entry it serves, or leaves every waiting entry to the later ones. -/
theorem DqStep.allServed {s t : State} {served : List Entry} (hdq : DqStep s t) (h : AllServed t.dq served) :
    AllServed s.dq ((servedNow s).toList ++ served) := by
  unfold DqStep at hdq
  split at hdq
  next e hnow =>
    obtain ⟨k, rest, hk, ht⟩ := hdq
    rw [hnow]
    exact AllServed.cons hk (ht ▸ h)
  next hnow =>
    rw [hnow]
    rcases hdq with ht | ⟨b, ht⟩
    · exact ht ▸ h
    · exact AllServed.of_append (ht ▸ h)

/-- A run that completes within the bound, and serves every waiting entry on the way. -/
theorem run_serves {s : State} (hgood : Good s) (hguard : s.cfg.clearGuard = true) (hreset : Turn.reset ∉ s.turns) :
    ∃ k t, k ≤ stepsLeft s ∧ runSteps k s = .next t ∧ Complete t ∧ AllServed s.dq (servedIn k s) := by
  refine run_induction (P := fun s => Turn.reset ∉ s.turns →
      ∃ k t, k ≤ stepsLeft s ∧ runSteps k s = .next t ∧ Complete t ∧ AllServed s.dq (servedIn k s))
    (fun s hdone _ => ?complete) (fun s t hnext hlt ih hreset => ?step) s hgood hguard hreset
  case complete =>
    obtain ⟨-, -, hdq⟩ := id hdone
    exact ⟨0, s, Nat.zero_le _, rfl, hdone, by simp [AllServed, hdq]⟩
  case step =>
    obtain ⟨hdq, hreset'⟩ := step_dq hnext hreset
    obtain ⟨k, u, hk, hrun, hdone, hserved⟩ := ih hreset'
    refine ⟨k + 1, u, by omega, (runSteps_succ hnext k).trans hrun, hdone, ?_⟩
    rw [servedIn_succ hnext]
    exact hdq.allServed hserved

/-- A step that takes an entry stores and sends its byte (R186). -/
theorem step_of_servedNow {s : State} {e : Entry} (hgood : Good s) (hserved : servedNow s = some e) :
    ∃ t, step s = .next t ∧ Emitted s t [(e.a.toNat, opDigit e.r, e.v)] ∧ StoresByte s t e.a.toNat e.r e.v := by
  obtain ⟨hlegal, -, -, -, -, -, hbatches, -⟩ := hgood
  obtain ⟨k, hbatch, hhead⟩ := Option.bind_eq_some_iff.1 hserved
  obtain ⟨b, hk, hb⟩ := Option.bind_eq_some_iff.1 hhead
  obtain ⟨rest, rfl⟩ := List.head?_eq_some_iff.1 hb
  obtain ⟨hinit, hmoves⟩ := servedBatch_eq_some_iff.1 hbatch
  obtain ⟨-, hvalid, -⟩ := hbatches _ (List.mem_of_getElem? hk)
  obtain ⟨t, ht, ⟨hframes, -⟩, hstores⟩ := deferredRowWrite_storesByte (s := { s with turns := s.turns.tail }) hk
    (hvalid e (List.mem_cons_self ..))
  exact ⟨t, (step_of_runnerMoves hlegal hinit hmoves).trans ht, hframes, hstores⟩

/-- Settles O47: the run that completes serves every waiting entry, and each served entry runs as its row write. -/
theorem everyWaitingWriteIsServed : Obligations.EveryWaitingWriteIsServed :=
  ⟨fun _ hgood hguard hreset => run_serves hgood hguard hreset, fun _ _ hgood hserved => step_of_servedNow hgood hserved⟩

end Sys2Proof.Machine
end
